-- ==== Sys2Proof/Word.lean ====
section
/-! DEFINITION. The word types of XJC: a bus word, an n-bit register value, a register-space address
(spec/00_scope.md R7, R9, R16; spec/20_memory.md R71). Bit 0 is the least significant bit of each. -/

namespace Sys2Proof

/-- A bus word of `W` bits (R7). -/
abbrev Word (W : Nat) := BitVec W

/-- The whole value of a multiword register of `n` bits. Read as a polynomial over GF(2), bit `i` is the
coefficient of `x^i` (R16). -/
abbrev Bits (n : Nat) := BitVec n

/-- A word address of the register space (R71): 12 bits, every value an address. -/
abbrev Addr := BitVec 12

end Sys2Proof
end

