-- ==== Sys2Proof/Config.lean ====
section
/-! DEFINITION. What an implementation of XJC fixes (spec/00_scope.md R7 to R14; spec/92_eei_decisions.md D36 to
D41), as plain data, and the one free value the spec leaves open (spec/20_memory.md R79). Which of these
configurations exist is said in WellFormed.lean. -/

namespace Sys2Proof

/-- The map of a GENERIC step unit (R190) as data: the image of each bit (`columns`, bit 0 first; a missing column is
zero) and a list of inputs whose output differs from the sum of those images (`exceptions`). With no exception the map is
GF(2)-linear; with exceptions it can be any map `Bits n → Bits n`, since R197 and D33 let a map that is not linear run
(log 3; `Laws.GenericMap.represents_every_map`). -/
structure GenericMap (n : Nat) where
  columns    : List (Bits n)
  exceptions : List (Bits n × Bits n)
deriving DecidableEq, Repr

/-- `STEP_FN` (R11, R190) with the constants each choice uses (R12, log 5). -/
inductive StepFn (n : Nat) where
  /-- R191 (N = 4) and R192 (N = 8): a shift amount `A` and a rotation `B`. -/
  | xoshiro (A B : Nat)
  /-- R193: a rotation `A`, a shift `B`, a rotation `C`. -/
  | xoroshiro (A B C : Nat)
  /-- Any map, given as a parameter. -/
  | generic (T : GenericMap n)
deriving DecidableEq, Repr

/-- The parameter tuple of R14: `W`, `N`, `JBITS`, `STEP_FN` with its constants, `COEF_ROM`. -/
structure Config where
  /-- Word width in bits (R7). -/
  W       : Nat
  /-- Number of state words (R8). -/
  N       : Nat
  /-- Width of the exponent register J (R10). -/
  JBITS   : Nat
  /-- The step unit (R11, R12). -/
  stepFn  : StepFn (N * W)
  /-- `COEF_ROM` (R13): the entry of a key is the first pair that lists it (log 4). -/
  coefRom : List (Word W × Bits (N * W))
deriving DecidableEq, Repr

namespace Config

/-- R9: `n = N·W`, the number of state bits. -/
abbrev n (c : Config) : Nat := c.N * c.W

/-- R10: `NJ = JBITS / W`, the number of words of J. -/
abbrev NJ (c : Config) : Nat := c.JBITS / c.W

/-- The value of the `k`-th read that R79 leaves unspecified ("a fresh draw with no law"), for words of `W` bits. It has no
body: nothing can be proved of it (log 9). -/
opaque freeRead (W k : Nat) : Word W

/-- The one concrete configuration the source gives (spec/95_test_vectors.md, XS256; D36, D40): `N = 4`, `W = 64`,
`A = 17`, `B = 45`, with the default `JBITS = 64` (R10). Its COEF_ROM has no entry: the spec forbids assuming any
(N11). `Machine.State.reset` has this configuration (log 2). -/
def xs256 : Config where
  W := 64
  N := 4
  JBITS := 64
  stepFn := .xoshiro 17 45
  coefRom := []

end Config
end Sys2Proof
end

