-- ==== Sys2Proof/Syntax.lean ====
section
/-! DEFINITION. The twelve commands of XJC (spec/30_encoding.md R101), one constructor per row of
spec/opcode_table.json. Commands have no register fields and no immediates (R102), so no constructor has an argument. -/

namespace Sys2Proof

/-- A command (R101). -/
inductive Instr where
  /-- NOP, word 0x00 (R220). -/
  | nop
  /-- LDP, word 0x01 (R141). -/
  | ldp
  /-- SELP, word 0x02 (R142). -/
  | selp
  /-- PRECOMP, word 0x03 (R145). -/
  | precomp
  /-- MULX, word 0x04 (R161). -/
  | mulx
  /-- SQR, word 0x05 (R164). -/
  | sqr
  /-- REDUCE, word 0x06 (R166). -/
  | reduce
  /-- REDUCE.P2, word 0x16 (R167). -/
  | reduceP2
  /-- RIFFLE, word 0x07 (R131). -/
  | riffle
  /-- STEP, word 0x08 (R195). -/
  | step
  /-- APPLY, word 0x09 (R201). -/
  | apply
  /-- CLRERR, word 0x0A (R221). -/
  | clrerr
deriving DecidableEq, Repr

end Sys2Proof
end

