-- ==== Sys2Proof/WellFormed.lean ====
section
/-! DEFINITION. Which configurations exist (spec/43_advance.md R190, R199; spec/00_scope.md R7, R8, R10, R12). A configuration
that fails a check "has no model": `Machine.State` carries the proof that its configuration passes. A command has no operand
(R102), so every `Instr` is well formed; which command WORDS are legal is said in Decode.lean (R105). -/

namespace Sys2Proof

/-- R12: a shift or rotate constant is in `1 .. W−1`. -/
def shiftInRange (W k : Nat) : Bool := decide (1 ≤ k ∧ k ≤ W - 1)

namespace Config

/-- R7: `W ∈ {8, 16, 32, 64}`. -/
def wfWidth (c : Config) : Bool := decide (c.W = 8 ∨ c.W = 16 ∨ c.W = 32 ∨ c.W = 64)

/-- R8: `1 ≤ N ≤ 256`. -/
def wfWords (c : Config) : Bool := decide (1 ≤ c.N ∧ c.N ≤ 256)

/-- R10: JBITS is a multiple of W with `1 ≤ JBITS/W ≤ 256`. -/
def wfJbits (c : Config) : Bool := decide (c.JBITS % c.W = 0 ∧ 1 ≤ c.JBITS / c.W ∧ c.JBITS / c.W ≤ 256)

/-- R190's table, with R12 for the constants each step function uses: XOSHIRO has N = 4 or 8, XOROSHIRO any N from 2 on,
GENERIC any N. -/
def wfStep (c : Config) : Bool :=
  match c.stepFn with
  | .xoshiro A B     => decide (c.N = 4 ∨ c.N = 8) && shiftInRange c.W A && shiftInRange c.W B
  | .xoroshiro A B C => decide (2 ≤ c.N) && shiftInRange c.W A && shiftInRange c.W B && shiftInRange c.W C
  | .generic _       => true

/-- R199: the configuration is a supported one. -/
def wf (c : Config) : Bool := c.wfWidth && c.wfWords && c.wfJbits && c.wfStep

end Config
end Sys2Proof
end

