-- ==== Sys2Proof/Decode.lean ====
section
/-! DEFINITION. The command word (spec/30_encoding.md R100 to R107): its fields, the legality rule, the decoder, total on every
word and rejecting by name, and the encoder written from the same opcode map. -/

namespace Sys2Proof

/-- Why a command word is no command (R106). Every one of them fails with ILLEGAL when the Core performs it (R233); the names
serve the reader only (log 12). -/
inductive DecodeError where
  /-- A bit of RSV (7:5) or RSVH (W−1:8) is set. -/
  | reservedBit
  /-- OP is 0xB to 0xF. -/
  | reservedOp
  /-- POW2 = 1 with an OP other than 0x6. -/
  | pow2NotReduce
deriving DecidableEq, Repr

/-- `OP = d[3:0]` (R100). -/
def cmdOp {W : Nat} (d : Word W) : BitVec 4 := d.extractLsb' 0 4

/-- `POW2 = d[4]` (R100). -/
def cmdPow2 {W : Nat} (d : Word W) : Bool := d.getLsbD 4

/-- `d[W−1:5]`: RSV (7:5) and RSVH (W−1:8) together (R100, R105). -/
def cmdRsv {W : Nat} (d : Word W) : BitVec (W - 5) := d.extractLsb' 5 (W - 5)

/-- R105: the command word is legal. -/
def legal {W : Nat} (d : Word W) : Bool :=
  decide (cmdRsv d = 0) && decide ((cmdOp d).toNat ≤ 0xA) && (!cmdPow2 d || decide (cmdOp d = 0x6))

/-- The opcode map (R101), read from OP and POW2. -/
def decodeFields (op : Nat) (pow2 : Bool) : Except DecodeError Instr :=
  match op, pow2 with
  | 0x0, false => .ok .nop
  | 0x1, false => .ok .ldp
  | 0x2, false => .ok .selp
  | 0x3, false => .ok .precomp
  | 0x4, false => .ok .mulx
  | 0x5, false => .ok .sqr
  | 0x6, false => .ok .reduce
  | 0x6, true  => .ok .reduceP2
  | 0x7, false => .ok .riffle
  | 0x8, false => .ok .step
  | 0x9, false => .ok .apply
  | 0xA, false => .ok .clrerr
  | op,  _     => if op ≤ 0xA then .error .pow2NotReduce else .error .reservedOp

/-- The decoder, total on W-bit words (R100, R101, R105, R106). -/
def decode {W : Nat} (d : Word W) : Except DecodeError Instr :=
  if cmdRsv d = 0 then decodeFields (cmdOp d).toNat (cmdPow2 d) else .error .reservedBit

namespace Instr

/-- The OP column of R101. -/
def op : Instr → BitVec 4
  | nop      => 0x0
  | ldp      => 0x1
  | selp     => 0x2
  | precomp  => 0x3
  | mulx     => 0x4
  | sqr      => 0x5
  | reduce   => 0x6
  | reduceP2 => 0x6
  | riffle   => 0x7
  | step     => 0x8
  | apply    => 0x9
  | clrerr   => 0xA

/-- The POW2 column of R101. -/
def pow2 : Instr → BitVec 1
  | nop      => 0
  | ldp      => 0
  | selp     => 0
  | precomp  => 0
  | mulx     => 0
  | sqr      => 0
  | reduce   => 0
  | reduceP2 => 1
  | riffle   => 0
  | step     => 0
  | apply    => 0
  | clrerr   => 0

end Instr

/-- The W-bit word of a command (R100, R101): OP in bits 3:0, POW2 in bit 4, every other bit 0. -/
def encode (W : Nat) (i : Instr) : Word W := (i.pow2 ++ i.op).setWidth W

/-- The instruction the decoder reads from a row of spec/opcode_table.json: the low `nbits` bits of `w`, every bit above them
zero, laid out as the widest command word there is, 64 bits (log 14). -/
def decodeTableWord (nbits w : Nat) : Option Instr :=
  match decode (BitVec.ofNat 64 (w % 2 ^ nbits)) with
  | .ok i    => some i
  | .error _ => none

end Sys2Proof
end

