-- ==== Sys2Proof/Machine/State.lean ====
section
/-! DEFINITION. The state of the machine as plain data: the registers of spec/10_state.md R48 at their exact widths, the
configuration they are built for (spec/00_scope.md R14), and the environment the step reads (the host's operations and the order
in which the agents move). Reset is spec/70_reset_and_hazards.md R260. -/

namespace Sys2Proof.Machine

/-- Why the machine would stop with a fault. NO constructor: the spec gives XJC no fault that stops it. Every failure is reported
in STATUS and the machine goes on (spec/60_exceptions.md R230, R239, R240), so no meaning raises one; there is nothing safe or
unsafe to say (log 18). -/
inductive Fault where
deriving DecidableEq, Repr

/-- Why the machine would refuse an instruction. -/
inductive Refusal where
  /-- The instruction has no meaning in this model. Only an arm of `exec` may raise it, and no arm does: all twelve commands have
  their meaning. Safe: it would stop the machine. -/
  | notModelled (mnemonic : String)
deriving DecidableEq, Repr

/-- One operation of a host program (spec/30_encoding.md R108, R109). -/
inductive HostOp (W : Nat) where
  /-- `wr a, d` = BusWrite(a, d); a command is a `wr` to CMD. -/
  | wr (a : Addr) (d : Word W)
  /-- `rd a -> name` = BusRead(a), whose value the host keeps. -/
  | rd (a : Addr)
  /-- `wait`: poll STATUS until BUSY = 0. -/
  | wait
deriving DecidableEq, Repr

/-- Who moves next (spec/00_scope.md R15; spec/70_reset_and_hazards.md R260). -/
inductive Turn where
  /-- The Host performs its next operation. -/
  | host
  /-- The Core performs the pending command, if there is one. -/
  | core
  /-- The reset input arrives. -/
  | reset
deriving DecidableEq, Repr

/-- The registers of XJC (R48), for a configuration `c`, under the spec's names. -/
structure Regs (c : Config) where
  /-- Characteristic coefficients `p(x)` (R32). -/
  P       : Bits c.n
  /-- P is committed, STATUS bit 1 (R33). -/
  PVALID  : Bool
  /-- The hidden power_mod table (R34). -/
  PM      : Vector (Bits c.n) c.n
  /-- PM agrees with P, STATUS bit 2 (R35). -/
  PMVALID : Bool
  /-- Result and jump coefficients (R36). -/
  R       : Bits c.n
  /-- Generator state in canonical order (R37). -/
  S       : Bits c.n
  /-- Accumulator (R38). -/
  ACC     : Bits c.n
  /-- Exponent (R39). -/
  J       : Bits c.JBITS
  /-- Key of COEF_ROM (R40). -/
  KEY     : Word c.W
  /-- Riffle input (R41). -/
  RIN     : Word c.W
  /-- Riffle output, low half spread (R41). -/
  RLO     : Word c.W
  /-- Riffle output, high half spread (R41). -/
  RHI     : Word c.W
  /-- Sticky: a command failed, STATUS bit 3 (R43). -/
  ERR     : Bool
  /-- Sticky: a write was dropped, STATUS bit 4 (R43). -/
  OVR     : Bool
  /-- Result code of the last completed command, STATUS bits 7:5 (R43). -/
  ECODE   : BitVec 3
  /-- The pending command word (R44); BUSY is that there is one. -/
  PEND    : Option (Word c.W)
deriving DecidableEq, Repr

/-- The machine with its configuration and its environment. -/
structure State where
  /-- The configuration; no step changes it (R14). -/
  cfg   : Config
  /-- It is a supported one (R199). -/
  cfgOk : cfg.wf = true
  /-- The registers (R48). -/
  regs  : Regs cfg
  /-- What the Host still has to do, next operation first (log 7). -/
  host  : List (HostOp cfg.W)
  /-- Who moves in the coming steps (log 7). -/
  turns : List Turn
  /-- What the Host's `rd`s returned, newest first, each with its address (log 7). -/
  reads : List (Addr × Word cfg.W)
  /-- How many free values have been drawn (the model's own field, log 9). -/
  draws : Nat
deriving DecidableEq, Repr

/-- R260: every register at its reset value. The entries of PM are the model's choice (R34 leaves them unspecified, log 6). -/
def Regs.reset (c : Config) : Regs c where
  P       := 0
  PVALID  := false
  PM      := Vector.replicate c.n 0
  PMVALID := false
  R       := 1
  S       := 1
  ACC     := 0
  J       := 0
  KEY     := 0
  RIN     := 0
  RLO     := 0
  RHI     := 0
  ERR     := false
  OVR     := false
  ECODE   := 0
  PEND    := none

/-- A machine of configuration `c` right after reset, with no host operation in sight. -/
def State.resetOf (c : Config) (ok : c.wf = true) : State where
  cfg   := c
  cfgOk := ok
  regs  := Regs.reset c
  host  := []
  turns := []
  reads := []
  draws := 0

/-- The machine right after reset, at the configuration the source gives (log 2). -/
def State.reset : State := State.resetOf Config.xs256 (by decide)

end Sys2Proof.Machine
end

