-- ==== Sys2Proof/Machine/Ops.lean ====
section
/-! DEFINITION. The shared operations: words of a multiword register (spec/20_memory.md R73, R74), the end of a command (spec/30_encoding.md
R104), and `raise Fail` (spec/00_scope.md R20; spec/60_exceptions.md R230 to R232), which is all XJC has in the place of an exception:
no state is saved, no mode changes, no vector is taken (R239), and there is no return from it (R240). -/

namespace Sys2Proof.Machine

/-- The value whose bit `i` is `f i`, for `i < w`. -/
def packBits (f : Nat → Bool) : (w : Nat) → BitVec w
  | 0     => 0#0
  | w + 1 => BitVec.cons (f w) (packBits f w)

/-- Word `k` of a register, `Q.w[k]` = bits `[kW+W−1 : kW]` (R17, R73). -/
def getWord {m : Nat} (W : Nat) (v : Bits m) (k : Nat) : Word W := v.extractLsb' (k * W) W

/-- The register with word `k` replaced by `d`, every other word kept (R73, R76). -/
def setWord {m W : Nat} (v : Bits m) (k : Nat) (d : Word W) : Bits m :=
  (v &&& ~~~((BitVec.allOnes W).setWidth m <<< (k * W))) ||| (d.setWidth m <<< (k * W))

/-- The `m`-bit value made of the words `f 0, …, f (cnt − 1)`, word 0 lowest (R73). -/
def packWords {W : Nat} (m : Nat) (f : Nat → Word W) : (cnt : Nat) → Bits m
  | 0       => 0
  | cnt + 1 => packWords m f cnt ||| ((f cnt).setWidth m <<< (cnt * W))

/-- The causes of `raise Fail` (R231). -/
inductive FailCode where
  /-- The command word is not legal (R233). -/
  | illegal
  /-- Characteristic coefficients are missing (R234). -/
  | nocoef
deriving DecidableEq, Repr

/-- The result code a failure records in ECODE (R231). -/
def failEcode : FailCode → BitVec 3
  | .illegal => 1
  | .nocoef  => 2

/-- The end of a command that did not fail (R104): ECODE <- 0 and PEND <- none. -/
def Regs.complete {c : Config} (r : Regs c) : Regs c := { r with ECODE := 0, PEND := none }

/-- `raise Fail(code)` (R20, R232): ECODE <- code, ERR <- 1, and the command is complete. No register the command targets is
written, because the caller hands over the registers as they were. -/
def Regs.fail {c : Config} (r : Regs c) (code : FailCode) : Regs c :=
  { r with ECODE := failEcode code, ERR := true, PEND := none }

/-- A command that needs coefficients: it fails with NOCOEF when PVALID = 0 (R33, R234), and otherwise leaves the registers
`r'` and completes. -/
def Regs.requireCoef {c : Config} (r r' : Regs c) : Regs c :=
  if r.PVALID then r'.complete else r.fail .nocoef

/-- The state with the registers `r`, everything else kept. -/
def State.withRegs (s : State) (r : Regs s.cfg) : State := { s with regs := r }

end Sys2Proof.Machine
end

