-- ==== Sys2Proof/Machine/Flags.lean ====
section
/-! DEFINITION. The STATUS word (spec/10_state.md R43). XJC has no condition codes and no other flags (R45). -/

namespace Sys2Proof.Machine

/-- STATUS.BUSY = (PEND ≠ none) (R44). -/
def Regs.busy {c : Config} (r : Regs c) : Bool := r.PEND.isSome

/-- STATUS bits 7:0 (R43): ECODE, OVR, ERR, PMVALID, PVALID, BUSY from the top down. -/
def Regs.statusByte {c : Config} (r : Regs c) : BitVec 8 :=
  r.ECODE ++ BitVec.ofBool r.OVR ++ BitVec.ofBool r.ERR ++ BitVec.ofBool r.PMVALID ++ BitVec.ofBool r.PVALID ++
    BitVec.ofBool r.busy

/-- STATUS (R43): bits W−1:8 are reserved and read as zero. -/
def Regs.status {c : Config} (r : Regs c) : Word c.W := r.statusByte.setWidth c.W

end Sys2Proof.Machine
end

