-- ==== Sys2Proof/Machine/Operands.lean ====
section
/-! DEFINITION. The register map (spec/20_memory.md R72), what each address reads as (R76), and the assembly of the operand J
(spec/30_encoding.md R103). Commands name no operand (R102): these are the operands of bus transactions. -/

namespace Sys2Proof.Machine

/-- What an address names (R72). -/
inductive RegWord where
  | cmd
  | status
  | key
  | rin
  | rlo
  | rhi
  | p (k : Nat)
  | r (k : Nat)
  | s (k : Nat)
  | acc (k : Nat)
  | j (k : Nat)
  | unmapped
deriving DecidableEq, Repr

/-- R72: bits [11:8] of the address select a block, bits [7:0] a word within it. -/
def regAt (c : Config) (a : Addr) : RegWord :=
  let k := (a.extractLsb' 0 8).toNat
  match (a.extractLsb' 8 4).toNat with
  | 0 =>
    match k with
    | 0 => .cmd
    | 1 => .status
    | 2 => .key
    | 3 => .rin
    | 4 => .rlo
    | 5 => .rhi
    | _ => .unmapped
  | 1 => if k < c.N then .p k else .unmapped
  | 2 => if k < c.N then .r k else .unmapped
  | 3 => if k < c.N then .s k else .unmapped
  | 4 => if k < c.N then .acc k else .unmapped
  | 5 => if k < c.NJ then .j k else .unmapped
  | _ => .unmapped

/-- The address of a register word (R72), as R108 lets a host program write it by name. Not meant for `unmapped`, which has no one
address: it answers the last address, unmapped in every configuration. -/
def regAddr : RegWord → Addr
  | .cmd      => 0x000
  | .status   => 0x001
  | .key      => 0x002
  | .rin      => 0x003
  | .rlo      => 0x004
  | .rhi      => 0x005
  | .p k      => BitVec.ofNat 12 (0x100 + k)
  | .r k      => BitVec.ofNat 12 (0x200 + k)
  | .s k      => BitVec.ofNat 12 (0x300 + k)
  | .acc k    => BitVec.ofNat 12 (0x400 + k)
  | .j k      => BitVec.ofNat 12 (0x500 + k)
  | .unmapped => 0xFFF

/-- What a register word reads as while BUSY = 0 (R76); CMD and unmapped addresses read 0. -/
def Regs.readWord {c : Config} (r : Regs c) : RegWord → Word c.W
  | .cmd      => 0
  | .status   => r.status
  | .key      => r.KEY
  | .rin      => r.RIN
  | .rlo      => r.RLO
  | .rhi      => r.RHI
  | .p k      => getWord c.W r.P k
  | .r k      => getWord c.W r.R k
  | .s k      => getWord c.W r.S k
  | .acc k    => getWord c.W r.ACC k
  | .j k      => getWord c.W r.J k
  | .unmapped => 0

/-- The exponent operand (R103): J as an unsigned integer. -/
def Regs.exponent {c : Config} (r : Regs c) : Nat := r.J.toNat

end Sys2Proof.Machine
end

