-- ==== Sys2Proof/Machine/Bus.lean ====
section
/-! DEFINITION. Bus transactions on the register interface (spec/20_memory.md R76 to R81). -/

namespace Sys2Proof.Machine

/-- A write to a register word while BUSY = 0 (R76): CMD issues (spec/30_encoding.md R104), a word of P also clears PVALID and
PMVALID (R77), read-only and unmapped addresses take no effect and set no flag. -/
def Regs.writeWord {c : Config} (r : Regs c) (d : Word c.W) : RegWord → Regs c
  | .cmd      => { r with PEND := some d }
  | .status   => r
  | .key      => { r with KEY := d }
  | .rin      => { r with RIN := d }
  | .rlo      => r
  | .rhi      => r
  | .p k      => { r with P := setWord r.P k d, PVALID := false, PMVALID := false }
  | .r k      => { r with R := setWord r.R k d }
  | .s k      => { r with S := setWord r.S k d }
  | .acc _    => r
  | .j k      => { r with J := setWord r.J k d }
  | .unmapped => r

/-- BusWrite(a, d) (R76, R78): while BUSY = 1 the write is dropped, whatever the address, and OVR is set. -/
def Regs.busWrite {c : Config} (r : Regs c) (a : Addr) (d : Word c.W) : Regs c :=
  if r.busy then { r with OVR := true } else r.writeWord d (regAt c a)

/-- The addresses that read exactly while BUSY = 1 (R79): STATUS, and CMD and unmapped addresses (which read 0). -/
def exactWhileBusy : RegWord → Bool
  | .cmd      => true
  | .status   => true
  | .key      => false
  | .rin      => false
  | .rlo      => false
  | .rhi      => false
  | .p _      => false
  | .r _      => false
  | .s _      => false
  | .acc _    => false
  | .j _      => false
  | .unmapped => true

/-- BusRead(a) now would return an unspecified value (R79). -/
def State.readDraws (s : State) (a : Addr) : Bool := s.regs.busy && !exactWhileBusy (regAt s.cfg a)

/-- The value BusRead(a) returns now (R76, R79): the register's word, or, where R79 leaves it unspecified, a free value. -/
def State.readValue (s : State) (a : Addr) : Word s.cfg.W :=
  if s.readDraws a then Config.freeRead s.cfg.W s.draws else s.regs.readWord (regAt s.cfg a)

/-- `rd a -> name` (spec/30_encoding.md R108): the host keeps the value. No register changes (R79); a free value that was drawn
is not drawn again. -/
def State.busRead (s : State) (a : Addr) : State :=
  { s with
    reads := (a, s.readValue a) :: s.reads
    draws := if s.readDraws a then s.draws + 1 else s.draws }

end Sys2Proof.Machine
end

