-- ==== Sys2Proof/Machine/StepUnit.lean ====
section
/-! DEFINITION. The step unit `T` (spec/43_advance.md R190 to R194), a pure function fixed by the configuration (R11, R15). -/

namespace Sys2Proof.Machine

/-- `rotl_W(a, k)` (spec/00_scope.md R18), for `1 ≤ k ≤ W − 1`. -/
def rotl {W : Nat} (a : Word W) (k : Nat) : Word W := (a <<< k) ||| (a >>> (W - k))

/-- XOSHIRO with N = 4 (R191): the assignments in the order the rule gives, `t` from the original `s1`. -/
def xoshiro4 {m : Nat} (W A B : Nat) (v : Bits m) : Bits m :=
  let s0 := getWord W v 0
  let s1 := getWord W v 1
  let s2 := getWord W v 2
  let s3 := getWord W v 3
  let t  := s1 <<< A
  let s2 := s2 ^^^ s0
  let s3 := s3 ^^^ s1
  let s1 := s1 ^^^ s2
  let s0 := s0 ^^^ s3
  let s2 := s2 ^^^ t
  let s3 := rotl s3 B
  packWords m (fun k => [s0, s1, s2, s3].getD k 0) 4

/-- XOSHIRO with N = 8 (R192). PRESUMED: the spec marks this wiring as general knowledge, not in its source (K1, log 16). -/
def xoshiro8 {m : Nat} (W A B : Nat) (v : Bits m) : Bits m :=
  let s0 := getWord W v 0
  let s1 := getWord W v 1
  let s2 := getWord W v 2
  let s3 := getWord W v 3
  let s4 := getWord W v 4
  let s5 := getWord W v 5
  let s6 := getWord W v 6
  let s7 := getWord W v 7
  let t  := s1 <<< A
  let s2 := s2 ^^^ s0
  let s5 := s5 ^^^ s1
  let s1 := s1 ^^^ s2
  let s7 := s7 ^^^ s3
  let s3 := s3 ^^^ s4
  let s4 := s4 ^^^ s5
  let s0 := s0 ^^^ s6
  let s6 := s6 ^^^ s7
  let s6 := s6 ^^^ t
  let s7 := rotl s7 B
  packWords m (fun k => [s0, s1, s2, s3, s4, s5, s6, s7].getD k 0) 8

/-- XOROSHIRO with N ≥ 2 words in canonical order (R193; R194 is the case N = 2). -/
def xoroshiro {m : Nat} (W N A B C : Nat) (v : Bits m) : Bits m :=
  let s0 := getWord W v 0
  let sf := getWord W v (N - 1) ^^^ s0
  packWords m
    (fun i =>
      if i = N - 1 then rotl sf C
      else if i = N - 2 then rotl s0 A ^^^ sf ^^^ (sf <<< B)
      else getWord W v (i + 1))
    N

/-- The XOR of the columns at the set bits of `v`; `i` counts the columns already passed. -/
def xorColumns {n : Nat} (v : Bits n) : (i : Nat) → List (Bits n) → Bits n
  | _, []      => 0
  | i, m :: ms => (if v.getLsbD i then m else 0) ^^^ xorColumns v (i + 1) ms

/-- A GENERIC map applied (R190, log 3): the listed output if `v` is an exception, else the sum of its bits' images. -/
def genericStep {n : Nat} (g : GenericMap n) (v : Bits n) : Bits n :=
  match g.exceptions.lookup v with
  | some w => w
  | none   => xorColumns v 0 g.columns

/-- The step unit `T` of a configuration (R190). XOSHIRO exists for N = 4 and N = 8 only (R199), so the second branch is N = 8. -/
def stepT (c : Config) (v : Bits c.n) : Bits c.n :=
  match c.stepFn with
  | .xoshiro A B     => if c.N = 4 then xoshiro4 c.W A B v else xoshiro8 c.W A B v
  | .xoroshiro A B C => xoroshiro c.W c.N A B C v
  | .generic g       => genericStep g v

end Sys2Proof.Machine
end

