-- ==== Sys2Proof/Machine/Advance.lean ====
section
/-! DEFINITION. Advancing the generator state: STEP and the jump-application accumulator APPLY (spec/43_advance.md R195 to R202). -/

namespace Sys2Proof.Machine

/-- The loop of R198 from bit `i` on, for `cnt` more bits: XOR the current state into the accumulator if `r[i] = 1`, then step
once. It answers (accumulator, current state). -/
def applyLoop {n : Nat} (T : Bits n → Bits n) (r : Bits n) : (cnt i : Nat) → (acc cur : Bits n) → Bits n × Bits n
  | 0,       _, acc, cur => (acc, cur)
  | cnt + 1, i, acc, cur => applyLoop T r cnt (i + 1) (if r.getLsbD i then acc ^^^ cur else acc) (T cur)

/-- `apply(r, s)` (R198): `r(T)·s` with exactly `n` applications of `T`; the last state of the loop is discarded. -/
def applyPoly {n : Nat} (T : Bits n → Bits n) (r s : Bits n) : Bits n := (applyLoop T r n 0 0 s).1

/-- STEP (R195): S <- T(S). It cannot fail and does not need PVALID. -/
def execStep (s : State) : Host.Outcome State Fault Refusal :=
  .next (s.withRegs ({ s.regs with S := stepT s.cfg s.regs.S } : Regs s.cfg).complete)

/-- APPLY (R201): ACC <- apply(R, S), then S <- ACC. It reads R and S only and cannot fail (spec/90_conflicts.md C6). -/
def execApply (s : State) : Host.Outcome State Fault Refusal :=
  .next (s.withRegs
    ({ s.regs with
        ACC := applyPoly (stepT s.cfg) s.regs.R s.regs.S
        S   := applyPoly (stepT s.cfg) s.regs.R s.regs.S } : Regs s.cfg).complete)

end Sys2Proof.Machine
end

