-- ==== Sys2Proof/Machine/Riffle.lean ====
section
/-! DEFINITION. The riffle bit-interleaver (spec/40_riffle.md R130 to R133; the interleave, not the de-interleave:
spec/90_conflicts.md C1). -/

namespace Sys2Proof.Machine

/-- Bits `off, off+1, …` of `w` spread to the even bit positions of a word, every odd bit 0 (R130). -/
def spread {W : Nat} (w : Word W) (off : Nat) : Word W :=
  packBits (fun i => i % 2 == 0 && w.getLsbD (off + i / 2)) W

/-- `riffle_W(w).lo` (R130): the low half of `w`, spread. -/
def riffleLo {W : Nat} (w : Word W) : Word W := spread w 0

/-- `riffle_W(w).hi` (R130): the high half of `w`, spread. -/
def riffleHi {W : Nat} (w : Word W) : Word W := spread w (W / 2)

/-- `dbl(v)` (R132): word `2k` is `riffle_W(v.w[k]).lo` and word `2k+1` is `riffle_W(v.w[k]).hi`, for the `N` words of `v`. -/
def dbl {m : Nat} (W N : Nat) (v : Bits m) : Bits (2 * m) :=
  packWords (2 * m) (fun k => if k % 2 = 0 then riffleLo (getWord W v (k / 2)) else riffleHi (getWord W v (k / 2))) (2 * N)

/-- RIFFLE (R131): (RLO, RHI) <- riffle_W(RIN). It cannot fail. -/
def execRiffle (s : State) : Host.Outcome State Fault Refusal :=
  .next (s.withRegs ({ s.regs with RLO := riffleLo s.regs.RIN, RHI := riffleHi s.regs.RIN } : Regs s.cfg).complete)

end Sys2Proof.Machine
end

