-- ==== Sys2Proof/Machine/Polynomial.lean ====
section
/-! DEFINITION. GF(2) polynomials modulo `c(x) = x^n + p(x)` (spec/42_polynomial.md R160 to R168; spec/41_coefficients.md R144):
multiply by x, the power_mod table, squaring, `x^J` and `x^(2^J)`, and the commands MULX, SQR, REDUCE and REDUCE.P2. -/

namespace Sys2Proof.Machine

/-- `mulx(v)` (R160): shift every coefficient up one place and, if the top coefficient was set, fold it back with `p`. -/
def mulx {n : Nat} (p v : Bits n) : Bits n :=
  if v.getLsbD (n - 1) then (v <<< 1) ^^^ p else v <<< 1

/-- `v, mulx v, mulx (mulx v), …`: `k` entries. -/
def mulxChain {n : Nat} (p : Bits n) : (k : Nat) → Bits n → List (Bits n)
  | 0,     _ => []
  | k + 1, v => v :: mulxChain p k (mulx p v)

theorem mulxChain_length {n : Nat} (p : Bits n) : ∀ (k : Nat) (v : Bits n), (mulxChain p k v).length = k
  | 0,     _ => rfl
  | k + 1, v => congrArg (· + 1) (mulxChain_length p k (mulx p v))

/-- `powmod(P)` (R144): entry 0 is `P` and each later entry is `mulx` of the one before it. -/
def powmod {n : Nat} (p : Bits n) : Vector (Bits n) n :=
  ⟨(mulxChain p n p).toArray, mulxChain_length p n p⟩

/-- The fold of the high half (R163): for every set bit `i` of `h`, XOR entry `i` of the table into `acc`. `i` counts the entries
already passed. -/
def foldHigh {n : Nat} (h : Bits n) : (i : Nat) → (table : List (Bits n)) → (acc : Bits n) → Bits n
  | _, [],      acc => acc
  | i, m :: ms, acc => foldHigh h (i + 1) ms (if h.getLsbD i then acc ^^^ m else acc)

/-- `sqr(v)` with the table `pm` (R163): the double-length riffle, its low half kept, its high half folded. -/
def sqr {n : Nat} (W N : Nat) (pm : Vector (Bits n) n) (v : Bits n) : Bits n :=
  let d := dbl W N v
  foldHigh (d.extractLsb' n n) 0 pm.toList (d.extractLsb' 0 n)

/-- The loop of R166: for `b` from `m − 1` down to 0, square, and multiply by x if `J[b] = 1`. -/
def reduceLoop {n : Nat} (square timesX : Bits n → Bits n) (j : Nat) : (m : Nat) → Bits n → Bits n
  | 0,     r => r
  | b + 1, r => reduceLoop square timesX j b (if j.testBit b then timesX (square r) else square r)

/-- `x^J mod c(x)` (R166), with the direct cases `J < n` and `J = n` (R168). -/
def reduceLit {n : Nat} (W N : Nat) (p : Bits n) (pm : Vector (Bits n) n) (j : Nat) : Bits n :=
  if j < n then (1 : Bits n) <<< j
  else if j = n then p
  else reduceLoop (sqr W N pm) (mulx p) j (Nat.log2 j) 2

/-- `x^(2^J) mod c(x)` (R167): exactly `J` squarings of x, with no shortcut. -/
def reducePow2 {n : Nat} (W N : Nat) (pm : Vector (Bits n) n) (j : Nat) : Bits n := (sqr W N pm)^[j] 2

/-- `ensure_pm()` (R165): build the table when PMVALID = 0. -/
def Regs.ensurePm {c : Config} (r : Regs c) : Regs c :=
  if r.PMVALID then r else { r with PM := powmod r.P, PMVALID := true }

/-- `sqr` of a register value with the table the registers hold. -/
def Regs.square {c : Config} (r : Regs c) (v : Bits c.n) : Bits c.n := sqr c.W c.N r.PM v

/-- MULX (R161): R <- mulx(R); NOCOEF when PVALID = 0. It does not use PM. -/
def execMulx (s : State) : Host.Outcome State Fault Refusal :=
  .next (s.withRegs (s.regs.requireCoef { s.regs with R := mulx s.regs.P s.regs.R }))

/-- SQR (R164): ensure_pm, then R <- sqr(R); NOCOEF when PVALID = 0. -/
def execSqr (s : State) : Host.Outcome State Fault Refusal :=
  .next (s.withRegs (s.regs.requireCoef { s.regs.ensurePm with R := s.regs.ensurePm.square s.regs.R }))

/-- REDUCE (R166): ensure_pm, then R <- x^J mod c(x); NOCOEF when PVALID = 0. No value of J fails. -/
def execReduce (s : State) : Host.Outcome State Fault Refusal :=
  .next (s.withRegs (s.regs.requireCoef
    { s.regs.ensurePm with R := reduceLit s.cfg.W s.cfg.N s.regs.P s.regs.ensurePm.PM s.regs.exponent }))

/-- REDUCE.P2 (R167): ensure_pm, then R <- x^(2^J) mod c(x); NOCOEF when PVALID = 0. It completes in one step of the model,
however large J is (R271, log 13). -/
def execReduceP2 (s : State) : Host.Outcome State Fault Refusal :=
  .next (s.withRegs (s.regs.requireCoef
    { s.regs.ensurePm with R := reducePow2 s.cfg.W s.cfg.N s.regs.ensurePm.PM s.regs.exponent }))

end Sys2Proof.Machine
end

