-- ==== Sys2Proof/Machine/Coefficients.lean ====
section
/-! DEFINITION. How characteristic coefficients enter the block: LDP, SELP, PRECOMP (spec/41_coefficients.md R140 to R145). -/

namespace Sys2Proof.Machine

/-- `COEF_ROM(key)` (R140). -/
def coefLookup (c : Config) (key : Word c.W) : Option (Bits c.n) := c.coefRom.lookup key

/-- LDP (R141): PVALID <- 1, PMVALID <- 0. It does not inspect P and cannot fail. -/
def execLdp (s : State) : Host.Outcome State Fault Refusal :=
  .next (s.withRegs ({ s.regs with PVALID := true, PMVALID := false } : Regs s.cfg).complete)

/-- The registers after SELP (R142, R143), given what COEF_ROM answers for KEY. A failing SELP leaves P and clears both flags:
the one failure that writes more than ECODE and ERR. -/
def Regs.selp {c : Config} (r : Regs c) : Option (Bits c.n) → Regs c
  | some v => ({ r with P := v, PVALID := true, PMVALID := false } : Regs c).complete
  | none   => ({ r with PVALID := false, PMVALID := false } : Regs c).fail .nocoef

/-- SELP (R142, R143): load P from COEF_ROM(KEY). -/
def execSelp (s : State) : Host.Outcome State Fault Refusal :=
  .next (s.withRegs (s.regs.selp (coefLookup s.cfg s.regs.KEY)))

/-- PRECOMP (R145): PM <- powmod(P), PMVALID <- 1; NOCOEF when PVALID = 0. -/
def execPrecomp (s : State) : Host.Outcome State Fault Refusal :=
  .next (s.withRegs (s.regs.requireCoef { s.regs with PM := powmod s.regs.P, PMVALID := true }))

end Sys2Proof.Machine
end

