-- ==== Sys2Proof/Machine/Control.lean ====
section
/-! DEFINITION. The commands that compute nothing: NOP and CLRERR (spec/44_control.md R220, R221). -/

namespace Sys2Proof.Machine

/-- NOP (R220): no register changes but ECODE <- 0 (and the end of the command, R104). -/
def execNop (s : State) : Host.Outcome State Fault Refusal :=
  .next (s.withRegs s.regs.complete)

/-- CLRERR (R221): ERR, OVR and ECODE <- 0. -/
def execClrerr (s : State) : Host.Outcome State Fault Refusal :=
  .next (s.withRegs ({ s.regs with ERR := false, OVR := false } : Regs s.cfg).complete)

end Sys2Proof.Machine
end

