-- ==== Sys2Proof/Machine/Dispatch.lean ====
section
/-! DEFINITION. One arm per command: the Core performs it and completes it (spec/30_encoding.md R101, R104). -/

namespace Sys2Proof.Machine

def exec (i : Instr) (s : State) : Host.Outcome State Fault Refusal :=
  match i with
  | .nop => Sys2Proof.Machine.execNop s
  | .ldp => Sys2Proof.Machine.execLdp s
  | .selp => Sys2Proof.Machine.execSelp s
  | .precomp => Sys2Proof.Machine.execPrecomp s
  | .mulx => Sys2Proof.Machine.execMulx s
  | .sqr => Sys2Proof.Machine.execSqr s
  | .reduce => Sys2Proof.Machine.execReduce s
  | .reduceP2 => Sys2Proof.Machine.execReduceP2 s
  | .riffle => Sys2Proof.Machine.execRiffle s
  | .step => Sys2Proof.Machine.execStep s
  | .apply => Sys2Proof.Machine.execApply s
  | .clrerr => Sys2Proof.Machine.execClrerr s

end Sys2Proof.Machine
end

