-- ==== Sys2Proof/Machine/Agents.lean ====
section
/-! DEFINITION. The moves of the agents (spec/00_scope.md R15): the Core performs the pending command (spec/30_encoding.md R104), the
Host performs one operation of its program (spec/20_memory.md R71; spec/30_encoding.md R108, R109), the reset input arrives
(spec/70_reset_and_hazards.md R260). -/

namespace Sys2Proof.Machine

/-- The Core performs the command word `d` (R104, R105): an illegal word fails with ILLEGAL and does nothing else (R233), a
legal one has the meaning of its command. -/
def performWord (s : State) (d : Word s.cfg.W) : Host.Outcome State Fault Refusal :=
  match decode d with
  | .ok i    => exec i s
  | .error _ => .next (s.withRegs (s.regs.fail .illegal))

/-- The Core's turn (R104): its step is enabled only when PEND ≠ none; otherwise nothing happens (log 8). -/
def coreTurn (s : State) : Host.Outcome State Fault Refusal :=
  match s.regs.PEND with
  | some d => performWord s d
  | none   => .next s

/-- One operation of the host program, which is then past. `wait` reads STATUS and stays while bit 0 (BUSY) is 1 (R109, log 10). -/
def hostOp (s : State) (rest : List (HostOp s.cfg.W)) : HostOp s.cfg.W → State
  | .wr a d => { s with regs := s.regs.busWrite a d, host := rest }
  | .rd a   => { s.busRead a with host := rest }
  | .wait   => if (s.readValue (regAddr .status)).getLsbD 0 then s else { s with host := rest }

/-- The Host's turn: its next operation, or nothing when it has none (log 8). -/
def hostTurn (s : State) : State :=
  match s.host with
  | []         => s
  | op :: rest => hostOp s rest op

/-- The reset input (R260): every register takes its reset value, a pending command is discarded. The host's own program and record
and the order of turns are outside the block and stay (log 11). -/
def resetTurn (s : State) : State := s.withRegs (Regs.reset s.cfg)

/-- One move. Where `turns` says who moves, that agent moves. Where it says nothing more, the Core completes a pending command and
otherwise the Host goes on: so a pending command is always performed (R104's weak fairness, log 8). -/
def move (s : State) : Host.Outcome State Fault Refusal :=
  match s.turns with
  | .host :: ts  => .next (hostTurn { s with turns := ts })
  | .core :: ts  => coreTurn { s with turns := ts }
  | .reset :: ts => .next (resetTurn { s with turns := ts })
  | []           => if s.regs.busy then coreTurn s else .next (hostTurn s)

/-- The state in which the very next move is the Core's, with the command word `d` pending: where a command "is fetched" on this
hardware, which fetches nothing (spec/10_state.md R31, R44; log 15). -/
def State.issued (s : State) (d : Word s.cfg.W) : State :=
  { s with regs := { s.regs with PEND := some d }, turns := .core :: s.turns }

end Sys2Proof.Machine
end

