-- ==== Sys2Proof/Machine/Step.lean ====
section
/-! DEFINITION. One step of the machine: one host bus transaction, one command completion, or the reset input
(spec/70_reset_and_hazards.md R269). -/

namespace Sys2Proof.Machine

/-- One step. -/
def step : State → Host.Outcome State Fault Refusal := move

/-- The state whose very next step runs the command word given by the low `nbits` bits of `w`, every bit above them zero: the word
is pending and the Core moves next. It stands for a `BusWrite(0x000, w)` that has just been taken (R104, log 15). -/
def State.withFetchWord (s : State) (nbits w : Nat) : State := s.issued (BitVec.ofNat s.cfg.W (w % 2 ^ nbits))

end Sys2Proof.Machine
end

