-- ==== Sys2Proof/Machine/Assembler.lean ====
section
/-! DEFINITION. The host-program notation of spec/30_encoding.md R108 and R109: mnemonics, symbolic addresses and pseudo-operations,
each as the list of host operations it stands for. The list goes into `State.host`. -/

namespace Sys2Proof.Machine

/-- A mnemonic on a line of its own (R108): BusWrite(0x000, its encoding). -/
def asmCmd (c : Config) (i : Instr) : List (HostOp c.W) := [.wr (regAddr .cmd) (encode c.W i)]

/-- A command followed by `wait`, as every command in an expansion is (R109). -/
def asmCmdWait (c : Config) (i : Instr) : List (HostOp c.W) := asmCmd c i ++ [.wait]

/-- `wrv <blk>, v` (R109): one `wr` per word, word 0 first. -/
def asmWrv (c : Config) {m : Nat} (blk : Nat → RegWord) (words : Nat) (v : Bits m) : List (HostOp c.W) :=
  (List.range words).map fun k => .wr (regAddr (blk k)) (getWord c.W v k)

/-- `rdv <blk> -> v` (R109): one `rd` per word, word 0 first. -/
def asmRdv (c : Config) (blk : Nat → RegWord) (words : Nat) : List (HostOp c.W) :=
  (List.range words).map fun k => .rd (regAddr (blk k))

/-- `loadp v` (R109): `wrv p, v`, `ldp`, `wait`. -/
def asmLoadp (c : Config) (v : Bits c.n) : List (HostOp c.W) := asmWrv c .p c.N v ++ asmCmdWait c .ldp

/-- `jump J` (R109): `wrv j, J`, `reduce`, `wait`, `apply`, `wait`. -/
def asmJump (c : Config) (j : Bits c.JBITS) : List (HostOp c.W) :=
  asmWrv c .j c.NJ j ++ asmCmdWait c .reduce ++ asmCmdWait c .apply

/-- `jump2 J` (R109): `wrv j, J`, `reduce.p2`, `wait`, `apply`, `wait`. -/
def asmJump2 (c : Config) (j : Bits c.JBITS) : List (HostOp c.W) :=
  asmWrv c .j c.NJ j ++ asmCmdWait c .reduceP2 ++ asmCmdWait c .apply

/-- `seed v` (R109): `wrv s, v`. -/
def asmSeed (c : Config) (v : Bits c.n) : List (HostOp c.W) := asmWrv c .s c.N v

end Sys2Proof.Machine
end

