-- ==== Sys2Proof/Safety.lean ====
section
/-! DEFINITION. The terms claims about XJC use: the invariant of its registers, what it means that a run goes on, and the reading
of register values as polynomials over GF(2), in which the spec states its laws (spec/00_scope.md R22, R26). Nothing here is part
of the machine. -/

namespace Sys2Proof

/-- The machine goes on: no fault, no refusal (spec/60_exceptions.md R230, R239). -/
def Machine.GoesOn (o : Host.Outcome Machine.State Machine.Fault Machine.Refusal) : Prop := ∃ t, o = .next t

/-- The step from `s` to `t` is the Core's, and it completes the command `i`: the word of `i` is pending, the Core moves (because
`turns` says so, or says nothing more, log 8), and `t` is what the command makes of the state with that turn used up (R104). -/
def Machine.State.Completes (s : Machine.State) (i : Instr) (t : Machine.State) : Prop :=
  s.regs.PEND = some (encode s.cfg.W i) ∧
  ∃ ts, (s.turns = .core :: ts ∨ s.turns = [] ∧ ts = []) ∧ Machine.exec i { s with turns := ts } = .next t

/-- The step from `s` to `t` is the Host's, and it performs the bus write of `d` to `a` (R71). -/
def Machine.State.HostWrites (s : Machine.State) (a : Addr) (d : Word s.cfg.W) (t : Machine.State) : Prop :=
  ∃ ts rest, (s.turns = .host :: ts ∨ s.turns = [] ∧ ts = []) ∧ s.host = .wr a d :: rest ∧
    t = { s with regs := s.regs.busWrite a d, host := rest, turns := ts }

/-- What holds of the registers in every reachable state: PMVALID = 1 only with PVALID = 1 and with `PM = powmod(P)`
(spec/41_coefficients.md R146); ECODE is 0, 1 or 2 (spec/60_exceptions.md R231); a failure code stands only with ERR = 1 (R232);
RLO and RHI have no odd bit set (spec/40_riffle.md R131). -/
abbrev Machine.Regs.Inv {c : Config} (r : Machine.Regs c) : Prop :=
  (r.PMVALID = true → r.PVALID = true ∧ r.PM = Machine.powmod r.P) ∧
  (r.ECODE = 0 ∨ r.ECODE = 1 ∨ r.ECODE = 2) ∧
  (r.ECODE ≠ 0 → r.ERR = true) ∧
  (∀ i < c.W, i % 2 = 1 → r.RLO.getLsbD i = false ∧ r.RHI.getLsbD i = false)

/-- A register value as a polynomial over GF(2): bit `i` is the coefficient of `x^i` (spec/00_scope.md R16). -/
noncomputable def toPoly {n : Nat} (v : Bits n) : Polynomial (ZMod 2) :=
  ∑ i ∈ Finset.range n, if v.getLsbD i then Polynomial.X ^ i else 0

/-- `c(x) = x^n + p(x)` (spec/10_state.md R32): the leading 1 is implicit in the register. -/
noncomputable def modulus {n : Nat} (p : Bits n) : Polynomial (ZMod 2) := Polynomial.X ^ n + toPoly p

/-- GF(2)-linearity of a state transition (spec/43_advance.md R197). -/
def IsLinear {n : Nat} (T : Bits n → Bits n) : Prop := ∀ a b, T (a ^^^ b) = T a ^^^ T b

/-- The transition matrix (spec/00_scope.md R25): column `j` is the image of bit `j`. -/
def transitionMatrix {n : Nat} (T : Bits n → Bits n) : Matrix (Fin n) (Fin n) (ZMod 2) :=
  Matrix.of fun i j => if (T ((1 : Bits n) <<< j.val)).getLsbD i.val then 1 else 0

/-- `c(x) = x^n + p(x)` is the characteristic polynomial of the linear transition `T` (spec/00_scope.md R26). -/
def IsCharPoly {n : Nat} (T : Bits n → Bits n) (p : Bits n) : Prop :=
  IsLinear T ∧ (transitionMatrix T).charpoly = modulus p

/-- `c(T) = 0`, read on states: `n` steps of any state are the sum of those steps that `p` selects (R26). -/
def Annihilates {n : Nat} (T : Bits n → Bits n) (p : Bits n) : Prop :=
  ∀ s, T^[n] s = Machine.applyPoly T p s

end Sys2Proof
end

