-- ==== Sys2Proof/Certificates/Slice0/Obligations.lean ====
section
/-! DEFINITION. The statements for the provers, each a `def Obligations.<Name> : Prop`. Every statement ranges over every state, so over
every configuration (W, N, JBITS, step unit, COEF_ROM) and every order in which the agents move. The next state of a command is
written out whole, so it is the command's result, its frame (every register the record does not name is unchanged, as are the
host's program and record) and its completion at once. -/

open Sys2Proof Sys2Proof.Machine

/-! ### Encoding -/

/-- R110: the encoding examples at W = 64, and the two illegal words. -/
def Obligations.EncodingExamplesDecode : Prop :=
  [Instr.nop, .ldp, .selp, .precomp, .mulx, .sqr, .reduce, .reduceP2, .riffle, .step, .apply, .clrerr].map (encode 64) =
      [0x00, 0x01, 0x02, 0x03, 0x04, 0x05, 0x06, 0x16, 0x07, 0x08, 0x09, 0x0A] ∧
  [0x00#64, 0x01, 0x02, 0x03, 0x04, 0x05, 0x06, 0x16, 0x07, 0x08, 0x09, 0x0A].map (fun d => (decode d).toOption) =
      [some .nop, some .ldp, some .selp, some .precomp, some .mulx, some .sqr, some .reduce, some .reduceP2, some .riffle,
        some .step, some .apply, some .clrerr] ∧
  decode 0x26#64 = .error .reservedBit ∧ decode 0x14#64 = .error .pow2NotReduce

/-- R100, R101, R107: at every width that holds the fields, a word decodes to a command exactly when it is that command's
encoding; so decoding inverts encoding and each command has one word. -/
def Obligations.DecodeInvertsEncode : Prop :=
  ∀ (W : Nat), 8 ≤ W → ∀ (d : Word W) (i : Instr), decode d = .ok i ↔ d = encode W i

/-- R105: the legality rule bit by bit, the twelve legal words, and that the decoder takes exactly them. -/
def Obligations.LegalWordsAreTheTwelve : Prop :=
  ∀ (W : Nat), 8 ≤ W → ∀ (d : Word W),
    (legal d = true ↔
      (∀ i, 5 ≤ i → d.getLsbD i = false) ∧ d.toNat % 16 ≤ 0xA ∧ (d.getLsbD 4 = false ∨ d.toNat % 16 = 0x6)) ∧
    (legal d = true ↔ d.toNat ≤ 0xA ∨ d.toNat = 0x16) ∧
    (legal d = true ↔ ∃ i, decode d = .ok i)

/-! ### The step, the Core's turn, the Host's turn -/

/-- R104: with a word pending that decodes to a command, the Core's move is that command's meaning. The Core moves when `turns`
says so and, by the model's own choice (log 8), when `turns` says nothing. -/
def Obligations.StepPerformsTheDecodedCommand : Prop :=
  ∀ (s : State) (d : Word s.cfg.W) (i : Instr), decode d = .ok i →
    step (s.issued d) = exec i { s with regs := { s.regs with PEND := some d } } ∧
    (s.regs.PEND = some d →
      (∀ ts, s.turns = .core :: ts → step s = exec i { s with turns := ts }) ∧
      (s.turns = [] → step s = exec i s))

/-- R233: an illegal word that the Core performs writes ECODE = ILLEGAL and ERR, completes, and does nothing else. -/
def Obligations.IllegalWordFails : Prop :=
  ∀ (s : State) (d : Word s.cfg.W) (ts : List Turn), s.regs.PEND = some d → legal d = false → s.turns = .core :: ts →
    step s = .next { s with turns := ts, regs := { s.regs with ECODE := 1, ERR := true, PEND := none } }

/-- R104: the Core's step is enabled only when PEND ≠ none; its turn is otherwise no change (log 8). -/
def Obligations.IdleCoreTurnChangesNothing : Prop :=
  ∀ (s : State) (ts : List Turn), s.regs.PEND = none → s.turns = .core :: ts → step s = .next { s with turns := ts }

/-- R230, R239: no failure stops the machine: every step answers a next state. -/
def Obligations.EveryStepGoesOn : Prop := ∀ s : State, GoesOn (step s)

/-- R14: no step changes the configuration. -/
def Obligations.ConfigurationNeverChanges : Prop :=
  ∀ s t : State, step s = .next t → t.cfg = s.cfg

/-- R76, R77: while BUSY = 0, what each address reads as and what a write to it does, over the whole register map of R72. -/
def Obligations.IdleAccessesFollowTheRegisterMap : Prop :=
  ∀ (s : State) (a : Addr) (d : Word s.cfg.W), s.regs.PEND = none →
    (s.readValue a =
      if a = 0x001 then s.regs.status
      else if a = 0x002 then s.regs.KEY
      else if a = 0x003 then s.regs.RIN
      else if a = 0x004 then s.regs.RLO
      else if a = 0x005 then s.regs.RHI
      else if 0x100 ≤ a.toNat ∧ a.toNat < 0x100 + s.cfg.N then getWord s.cfg.W s.regs.P (a.toNat - 0x100)
      else if 0x200 ≤ a.toNat ∧ a.toNat < 0x200 + s.cfg.N then getWord s.cfg.W s.regs.R (a.toNat - 0x200)
      else if 0x300 ≤ a.toNat ∧ a.toNat < 0x300 + s.cfg.N then getWord s.cfg.W s.regs.S (a.toNat - 0x300)
      else if 0x400 ≤ a.toNat ∧ a.toNat < 0x400 + s.cfg.N then getWord s.cfg.W s.regs.ACC (a.toNat - 0x400)
      else if 0x500 ≤ a.toNat ∧ a.toNat < 0x500 + s.cfg.NJ then getWord s.cfg.W s.regs.J (a.toNat - 0x500)
      else 0) ∧
    (s.regs.busWrite a d =
      if a = 0x000 then { s.regs with PEND := some d }
      else if a = 0x002 then { s.regs with KEY := d }
      else if a = 0x003 then { s.regs with RIN := d }
      else if 0x100 ≤ a.toNat ∧ a.toNat < 0x100 + s.cfg.N then
        { s.regs with P := setWord s.regs.P (a.toNat - 0x100) d, PVALID := false, PMVALID := false }
      else if 0x200 ≤ a.toNat ∧ a.toNat < 0x200 + s.cfg.N then
        { s.regs with R := setWord s.regs.R (a.toNat - 0x200) d }
      else if 0x300 ≤ a.toNat ∧ a.toNat < 0x300 + s.cfg.N then
        { s.regs with S := setWord s.regs.S (a.toNat - 0x300) d }
      else if 0x500 ≤ a.toNat ∧ a.toNat < 0x500 + s.cfg.NJ then
        { s.regs with J := setWord s.regs.J (a.toNat - 0x500) d }
      else s.regs)

/-- R73: word `k` of a value holds its bits `kW … kW+W−1`, and writing a word replaces that word and no other. -/
def Obligations.WordsAreLittleEndian : Prop :=
  ∀ (W m : Nat) (v : Bits m) (k : Nat) (d : Word W),
    (∀ i < W, (getWord W v k).getLsbD i = v.getLsbD (k * W + i)) ∧
    ((k + 1) * W ≤ m → getWord W (setWord v k d) k = d) ∧
    (∀ j, j ≠ k → getWord W (setWord v k d) j = getWord W v j)

/-- R71: a BusWrite on the Host's turn is one step, and its whole effect is that on the registers. -/
def Obligations.HostWriteIsOneStep : Prop :=
  ∀ (s : State) (a : Addr) (d : Word s.cfg.W) (rest : List (HostOp s.cfg.W)) (ts : List Turn),
    s.turns = .host :: ts → s.host = .wr a d :: rest →
    step s = .next { s with regs := s.regs.busWrite a d, host := rest, turns := ts }

/-- R79: a BusRead changes no register, at any time; the host keeps the value it returned. -/
def Obligations.HostReadHasNoSideEffect : Prop :=
  ∀ (s : State) (a : Addr) (rest : List (HostOp s.cfg.W)) (ts : List Turn),
    s.turns = .host :: ts → s.host = .rd a :: rest →
    ∃ k, step s = .next { s with reads := (a, s.readValue a) :: s.reads, draws := k, host := rest, turns := ts } ∧
      s.draws ≤ k

/-- R78: any write while BUSY = 1, to any address, CMD included, is dropped and sets OVR. -/
def Obligations.WritesWhileBusyAreDropped : Prop :=
  ∀ (s : State) (a : Addr) (d : Word s.cfg.W) (rest : List (HostOp s.cfg.W)) (ts : List Turn),
    s.regs.PEND ≠ none → s.turns = .host :: ts → s.host = .wr a d :: rest →
    step s = .next { s with regs := { s.regs with OVR := true }, host := rest, turns := ts }

/-- R79: reads while BUSY = 1. STATUS is exact, CMD and unmapped addresses read 0, every other register word is the free value of
that draw, and the next draw is another one. -/
def Obligations.ReadsWhileBusyDraw : Prop :=
  ∀ (s : State) (a : Addr), s.regs.PEND ≠ none →
    let data : Prop :=
      (0x002 ≤ a.toNat ∧ a.toNat ≤ 0x005) ∨ (0x100 ≤ a.toNat ∧ a.toNat < 0x100 + s.cfg.N) ∨
      (0x200 ≤ a.toNat ∧ a.toNat < 0x200 + s.cfg.N) ∨ (0x300 ≤ a.toNat ∧ a.toNat < 0x300 + s.cfg.N) ∨
      (0x400 ≤ a.toNat ∧ a.toNat < 0x400 + s.cfg.N) ∨ (0x500 ≤ a.toNat ∧ a.toNat < 0x500 + s.cfg.NJ)
    (a = 0x001 → s.readValue a = s.regs.status) ∧
    (data → s.readValue a = Config.freeRead s.cfg.W s.draws ∧ (s.busRead a).draws = s.draws + 1) ∧
    (a ≠ 0x001 → ¬ data → s.readValue a = 0)

/-- R109: `wait` passes when BUSY = 0 and stays, changing nothing, while BUSY = 1. -/
def Obligations.WaitPollsBusy : Prop :=
  ∀ (s : State) (rest : List (HostOp s.cfg.W)) (ts : List Turn), s.turns = .host :: ts → s.host = .wait :: rest →
    (s.regs.PEND = none → step s = .next { s with host := rest, turns := ts }) ∧
    (s.regs.PEND ≠ none → step s = .next { s with turns := ts })

/-- R265: whatever the host writes while a command is pending, and however many times, the command's operands stay those of its
issue: only OVR changes, and the Core then performs the command on those registers. -/
def Obligations.PendingCommandCapturesItsOperands : Prop :=
  ∀ (s : State) (d : Word s.cfg.W) (i : Instr) (ws : List (Addr × Word s.cfg.W)) (rest : List (HostOp s.cfg.W))
    (ts : List Turn), s.regs.PEND = some d → decode d = .ok i →
    s.host = ws.map (fun w => .wr w.1 w.2) ++ rest → s.turns = List.replicate ws.length .host ++ .core :: ts →
    core.run (ws.length + 1) s =
      exec i { s with regs := { s.regs with OVR := s.regs.OVR || !ws.isEmpty }, host := rest, turns := ts }

/-- R37, R109: `seed v` (`wrv s, v`) on an idle machine copies the words verbatim: S is `v`, nothing else changes. -/
def Obligations.SeedCopiesWordsVerbatim : Prop :=
  ∀ (s : State) (v : Bits s.cfg.n) (rest : List (HostOp s.cfg.W)) (ts : List Turn), s.regs.PEND = none →
    s.host = asmSeed s.cfg v ++ rest → s.turns = List.replicate s.cfg.N .host ++ ts →
    core.run s.cfg.N s = .next { s with regs := { s.regs with S := v }, host := rest, turns := ts }

/-! ### Status and reset -/

/-- R43, R44: the fields of STATUS, the rest reading as zero. -/
def Obligations.StatusFields : Prop :=
  ∀ s : State,
    s.regs.status.getLsbD 0 = s.regs.PEND.isSome ∧ s.regs.status.getLsbD 1 = s.regs.PVALID ∧
    s.regs.status.getLsbD 2 = s.regs.PMVALID ∧ s.regs.status.getLsbD 3 = s.regs.ERR ∧
    s.regs.status.getLsbD 4 = s.regs.OVR ∧ s.regs.status.extractLsb' 5 3 = s.regs.ECODE ∧
    (∀ i, 8 ≤ i → s.regs.status.getLsbD i = false)

/-- R260: the reset input, at any time, sets every register to its reset value and discards a pending command. PM's contents are
unspecified, so the statement says nothing of them, nor of what the host keeps outside the block. -/
def Obligations.ResetSetsEveryRegister : Prop :=
  ∀ (s : State) (ts : List Turn), s.turns = .reset :: ts →
    ∃ pm host reads draws, step s = .next { s with
      turns := ts, host := host, reads := reads, draws := draws
      regs := { P := 0, PVALID := false, PM := pm, PMVALID := false, R := 1, S := 1, ACC := 0, J := 0, KEY := 0, RIN := 0,
                RLO := 0, RHI := 0, ERR := false, OVR := false, ECODE := 0, PEND := none } }

/-- R260, R261: the machine right after reset, of any configuration: the register values the spec gives, STATUS = 0x00, idle. -/
def Obligations.ResetStateHasTheSpecValues : Prop :=
  ∀ (c : Config) (ok : c.wf = true),
    let r := (State.resetOf c ok).regs
    r.P = 0 ∧ r.PVALID = false ∧ r.PMVALID = false ∧ r.R = 1 ∧ r.S = 1 ∧ r.ACC = 0 ∧ r.J = 0 ∧ r.KEY = 0 ∧ r.RIN = 0 ∧
    r.RLO = 0 ∧ r.RHI = 0 ∧ r.status = 0 ∧ r.PEND = none ∧ getWord c.W r.R 0 = 1 ∧ getWord c.W r.S 0 = 1 ∧
    ∀ k, 1 ≤ k → getWord c.W r.R k = 0 ∧ getWord c.W r.S k = 0

/-- R262: right after reset APPLY is the identity on {1, 0, …, 0}; MULX, SQR, PRECOMP and REDUCE (either form) fail with NOCOEF;
RIFFLE, STEP, NOP and CLRERR succeed at once. -/
def Obligations.CommandsRightAfterReset : Prop :=
  ∀ (c : Config) (ok : c.wf = true),
    let s := State.resetOf c ok
    exec .apply s = .next (s.withRegs { s.regs with ACC := 1 }) ∧
    (∀ i ∈ [Instr.mulx, .sqr, .precomp, .reduce, .reduceP2],
      exec i s = .next (s.withRegs { s.regs with ECODE := 2, ERR := true })) ∧
    (∀ i ∈ [Instr.riffle, .step, .nop, .clrerr],
      ∃ r : Regs c, exec i s = .next (s.withRegs r) ∧ r.ECODE = 0 ∧ r.ERR = false)

/-! ### Control and coefficients -/

/-- R220: NOP changes nothing but ECODE <- 0, and completes. -/
def Obligations.NopClearsEcodeOnly : Prop :=
  ∀ s : State, exec .nop s = .next (s.withRegs { s.regs with ECODE := 0, PEND := none })

/-- R221: CLRERR clears ERR, OVR and ECODE, and no other register. -/
def Obligations.ClrerrClearsErrOvrEcode : Prop :=
  ∀ s : State, exec .clrerr s =
    .next (s.withRegs { s.regs with ERR := false, OVR := false, ECODE := 0, PEND := none })

/-- R141: LDP commits P as it stands. -/
def Obligations.LdpCommitsP : Prop :=
  ∀ s : State, exec .ldp s =
    .next (s.withRegs { s.regs with PVALID := true, PMVALID := false, ECODE := 0, PEND := none })

/-- R142, R143: SELP loads the entry of KEY, or clears PVALID and PMVALID and fails with NOCOEF, P unchanged. -/
def Obligations.SelpLoadsOrFails : Prop :=
  ∀ s : State,
    (∀ v, s.cfg.coefRom.lookup s.regs.KEY = some v → exec .selp s =
      .next (s.withRegs { s.regs with P := v, PVALID := true, PMVALID := false, ECODE := 0, PEND := none })) ∧
    (s.cfg.coefRom.lookup s.regs.KEY = none → exec .selp s =
      .next (s.withRegs { s.regs with PVALID := false, PMVALID := false, ECODE := 2, ERR := true, PEND := none }))

/-- R145 (with R144's table): PRECOMP fails with NOCOEF when PVALID = 0, writing nothing else; otherwise it leaves in PM the table
whose entry 0 is P and whose each later entry is `mulx` of the one before. -/
def Obligations.PrecompBuildsTheTable : Prop :=
  ∀ s : State,
    (s.regs.PVALID = false → exec .precomp s = .next (s.withRegs { s.regs with ECODE := 2, ERR := true, PEND := none })) ∧
    (s.regs.PVALID = true →
      ∃ table : Vector (Bits s.cfg.n) s.cfg.n,
        exec .precomp s =
          .next (s.withRegs { s.regs with PM := table, PMVALID := true, ECODE := 0, PEND := none }) ∧
        (∀ h : 0 < s.cfg.n, table[0] = s.regs.P) ∧
        (∀ i (h : i + 1 < s.cfg.n), table[i + 1] = mulx s.regs.P table[i]))

/-- R234: SELP raises NOCOEF exactly when COEF_ROM has no entry for KEY; PRECOMP, MULX, SQR, REDUCE and REDUCE.P2 exactly when
PVALID = 0, whatever J is; RIFFLE, STEP, APPLY, LDP, NOP and CLRERR never. -/
def Obligations.NocoefExactlyWhenCoefficientsAreMissing : Prop :=
  ∀ s : State,
    (∃ r : Regs s.cfg, exec .selp s = .next (s.withRegs r) ∧
      (s.cfg.coefRom.lookup s.regs.KEY = none → r.ECODE = 2 ∧ r.ERR = true) ∧
      (s.cfg.coefRom.lookup s.regs.KEY ≠ none → r.ECODE = 0 ∧ r.ERR = s.regs.ERR)) ∧
    (s.regs.PVALID = false → ∀ i ∈ [Instr.precomp, .mulx, .sqr, .reduce, .reduceP2],
      exec i s = .next (s.withRegs { s.regs with ECODE := 2, ERR := true, PEND := none })) ∧
    (s.regs.PVALID = true → ∀ i ∈ [Instr.precomp, .mulx, .sqr, .reduce, .reduceP2],
      ∃ r : Regs s.cfg, exec i s = .next (s.withRegs r) ∧ r.ECODE = 0 ∧ r.ERR = s.regs.ERR) ∧
    (∀ i ∈ [Instr.riffle, .step, .apply, .ldp, .nop, .clrerr],
      ∃ r : Regs s.cfg, exec i s = .next (s.withRegs r) ∧ r.ECODE = 0)

/-! ### Riffle -/

/-- R130, R131: RIFFLE writes the low half of RIN, spread to the even bits, to RLO and the high half to RHI. -/
def Obligations.RiffleInterleavesWithZeros : Prop :=
  ∀ s : State, ∃ lo hi : Word s.cfg.W,
    exec .riffle s = .next (s.withRegs { s.regs with RLO := lo, RHI := hi, ECODE := 0, PEND := none }) ∧
    ∀ j < s.cfg.W / 2,
      lo.getLsbD (2 * j) = s.regs.RIN.getLsbD j ∧ lo.getLsbD (2 * j + 1) = false ∧
      hi.getLsbD (2 * j) = s.regs.RIN.getLsbD (s.cfg.W / 2 + j) ∧ hi.getLsbD (2 * j + 1) = false

/-- R132: `dbl(v)` word by word and bit by bit, and as a polynomial: it is the square, of degree at most 2n − 2. -/
def Obligations.DoubleRiffleSquares : Prop :=
  ∀ (c : Config), c.wf = true → ∀ v : Bits c.n,
    (∀ k < c.N, getWord c.W (dbl c.W c.N v) (2 * k) = riffleLo (getWord c.W v k) ∧
      getWord c.W (dbl c.W c.N v) (2 * k + 1) = riffleHi (getWord c.W v k)) ∧
    (∀ i < c.n, (dbl c.W c.N v).getLsbD (2 * i) = v.getLsbD i ∧ (dbl c.W c.N v).getLsbD (2 * i + 1) = false) ∧
    toPoly (dbl c.W c.N v) = toPoly v ^ 2 ∧ (toPoly (dbl c.W c.N v)).natDegree ≤ 2 * c.n - 2

/-! ### Polynomials modulo c(x) -/

/-- R160: `mulx` bit by bit: bit `i` comes from bit `i − 1`, and the top bit folds `p` in. -/
def Obligations.MulxShiftsAndFolds : Prop :=
  ∀ (n : Nat) (p v : Bits n) (i : Nat), i < n →
    (mulx p v).getLsbD i = ((decide (0 < i) && v.getLsbD (i - 1)) ^^ (v.getLsbD (n - 1) && p.getLsbD i))

/-- R162: `mulx(v)` is the remainder of `x·v(x)` modulo `c(x)`, and `mulx` is linear, for every P. -/
def Obligations.MulxIsTimesXModC : Prop :=
  ∀ (n : Nat) (p v w : Bits n),
    toPoly (mulx p v) = (Polynomial.X * toPoly v) %ₘ modulus p ∧ mulx p (v ^^^ w) = mulx p v ^^^ mulx p w

/-- R161: MULX: NOCOEF when PVALID = 0; otherwise R <- mulx(R), nothing else but the completion, whatever PMVALID is. -/
def Obligations.MulxMultipliesR : Prop :=
  ∀ s : State,
    (s.regs.PVALID = false → exec .mulx s = .next (s.withRegs { s.regs with ECODE := 2, ERR := true, PEND := none })) ∧
    (s.regs.PVALID = true →
      exec .mulx s = .next (s.withRegs { s.regs with R := mulx s.regs.P s.regs.R, ECODE := 0, PEND := none }))

/-- R34, R144: entry `i` of the power_mod table is `x^(n+i) mod c(x)`. -/
def Obligations.PowmodEntriesArePowersOfX : Prop :=
  ∀ (n : Nat) (p : Bits n) (i : Nat) (h : i < n), toPoly (powmod p)[i] = Polynomial.X ^ (n + i) %ₘ modulus p

/-- R163: `sqr` keeps the low half of the double-length riffle and XORs in table entry `i` for every set bit `n + i` of it. -/
def Obligations.SqrFoldsTheHighHalf : Prop :=
  ∀ (c : Config), c.wf = true → ∀ (pm : Vector (Bits c.n) c.n) (v : Bits c.n),
    ∃ low : Bits c.n, (∀ j < c.n, low.getLsbD j = (decide (j % 2 = 0) && v.getLsbD (j / 2))) ∧
      sqr c.W c.N pm v =
        (List.finRange c.n).foldl
          (fun acc i => if (c.n + i.val) % 2 = 0 ∧ v.getLsbD ((c.n + i.val) / 2) = true then acc ^^^ pm[i] else acc) low

/-- R22, R163: with the table of P, `sqr(v)` is `v(x)² mod c(x)`, for every P. -/
def Obligations.SqrIsSquareModC : Prop :=
  ∀ (c : Config), c.wf = true → ∀ (p v : Bits c.n),
    toPoly (sqr c.W c.N (powmod p) v) = toPoly v ^ 2 %ₘ modulus p

/-- R164: SQR: NOCOEF when PVALID = 0; otherwise the table is built first when PMVALID = 0 (R165), then R <- sqr(R). -/
def Obligations.SqrSquaresR : Prop :=
  ∀ s : State,
    (s.regs.PVALID = false → exec .sqr s = .next (s.withRegs { s.regs with ECODE := 2, ERR := true, PEND := none })) ∧
    (s.regs.PVALID = true →
      let pm := if s.regs.PMVALID then s.regs.PM else powmod s.regs.P
      exec .sqr s =
        .next (s.withRegs { s.regs with
          PM := pm, PMVALID := true, R := sqr s.cfg.W s.cfg.N pm s.regs.R, ECODE := 0, PEND := none }))

/-- R166: REDUCE: NOCOEF when PVALID = 0; otherwise the table is built when PMVALID = 0, and R takes the direct cases, or the value
of the square-and-multiply loop over the bits of J below the highest, from the top down. -/
def Obligations.ReduceRunsSquareAndMultiply : Prop :=
  ∀ s : State,
    (s.regs.PVALID = false → exec .reduce s = .next (s.withRegs { s.regs with ECODE := 2, ERR := true, PEND := none })) ∧
    (s.regs.PVALID = true →
      let pm := if s.regs.PMVALID then s.regs.PM else powmod s.regs.P
      let J := s.regs.J.toNat
      exec .reduce s =
        .next (s.withRegs { s.regs with
          PM := pm, PMVALID := true, ECODE := 0, PEND := none
          R := if J < s.cfg.n then BitVec.ofNat s.cfg.n (2 ^ J)
               else if J = s.cfg.n then s.regs.P
               else (List.range (Nat.log2 J)).reverse.foldl
                 (fun r b => if J.testBit b then mulx s.regs.P (sqr s.cfg.W s.cfg.N pm r) else sqr s.cfg.W s.cfg.N pm r) 2 }))

/-- R167: REDUCE.P2: NOCOEF when PVALID = 0; otherwise the table is built when PMVALID = 0, and R is x squared exactly J times. -/
def Obligations.ReduceP2SquaresJTimes : Prop :=
  ∀ s : State,
    (s.regs.PVALID = false → exec .reduceP2 s = .next (s.withRegs { s.regs with ECODE := 2, ERR := true, PEND := none })) ∧
    (s.regs.PVALID = true →
      let pm := if s.regs.PMVALID then s.regs.PM else powmod s.regs.P
      exec .reduceP2 s =
        .next (s.withRegs { s.regs with
          PM := pm, PMVALID := true, R := (sqr s.cfg.W s.cfg.N pm)^[s.regs.J.toNat] 2, ECODE := 0, PEND := none }))

/-- R169: after REDUCE, `R = x^J mod c(x)`; after REDUCE.P2, `R = x^(2^J) mod c(x)`; for every P, from every state in which PMVALID
tells the truth (R146). -/
def Obligations.ReduceComputesThePower : Prop :=
  ∀ s : State, s.regs.PVALID = true → (s.regs.PMVALID = true → s.regs.PM = powmod s.regs.P) →
    (∃ r : Regs s.cfg, exec .reduce s = .next (s.withRegs r) ∧
      toPoly r.R = Polynomial.X ^ s.regs.J.toNat %ₘ modulus s.regs.P) ∧
    (∃ r : Regs s.cfg, exec .reduceP2 s = .next (s.withRegs r) ∧
      toPoly r.R = Polynomial.X ^ 2 ^ s.regs.J.toNat %ₘ modulus s.regs.P)

/-- R168: for `1 ≤ J ≤ n` the general loop of R166 would give the values of the direct cases. -/
def Obligations.DirectCasesAgreeWithTheLoop : Prop :=
  ∀ (c : Config), c.wf = true → ∀ (p : Bits c.n) (J : Nat), 1 ≤ J → J ≤ c.n →
    (List.range (Nat.log2 J)).reverse.foldl
      (fun r b => if J.testBit b then mulx p (sqr c.W c.N (powmod p) r) else sqr c.W c.N (powmod p) r) 2 =
    if J < c.n then BitVec.ofNat c.n (2 ^ J) else p

/-- R147: P = 0 is the modulus `x^n`: no fold in `mulx`, a table of zeros, and SQR discards the high half. -/
def Obligations.ZeroPMeansModulusXToTheN : Prop :=
  ∀ (c : Config), c.wf = true → ∀ (v : Bits c.n),
    modulus (0 : Bits c.n) = Polynomial.X ^ c.n ∧
    mulx 0 v = BitVec.ofNat c.n (2 * v.toNat) ∧
    (∀ i (h : i < c.n), (powmod (0 : Bits c.n))[i] = 0) ∧
    ∀ j < c.n, (sqr c.W c.N (powmod 0) v).getLsbD j = (dbl c.W c.N v).getLsbD j

/-! ### The step unit and APPLY -/

/-- R195: STEP: S <- T(S), nothing else but the completion, whatever PVALID is. -/
def Obligations.StepAppliesT : Prop :=
  ∀ s : State, exec .step s =
    .next (s.withRegs { s.regs with S := stepT s.cfg s.regs.S, ECODE := 0, PEND := none })

/-- R191: `T` of XOSHIRO with N = 4, word by word. -/
def Obligations.XoshiroFourWordStep : Prop :=
  ∀ (c : Config) (A B : Nat), c.wf = true → c.stepFn = .xoshiro A B → c.N = 4 → ∀ v : Bits c.n,
    let s := getWord c.W v
    let t := getWord c.W (stepT c v)
    t 0 = s 0 ^^^ s 3 ^^^ s 1 ∧ t 1 = s 1 ^^^ s 2 ^^^ s 0 ∧ t 2 = s 2 ^^^ s 0 ^^^ (s 1 <<< A) ∧
    t 3 = (s 3 ^^^ s 1).rotateLeft B

/-- R192: `T` of XOSHIRO with N = 8, word by word. The spec marks this wiring as general knowledge (log 16). -/
def Obligations.XoshiroEightWordStep : Prop :=
  ∀ (c : Config) (A B : Nat), c.wf = true → c.stepFn = .xoshiro A B → c.N = 8 → ∀ v : Bits c.n,
    let s := getWord c.W v
    let t := getWord c.W (stepT c v)
    t 0 = s 0 ^^^ s 6 ∧ t 1 = s 1 ^^^ s 2 ^^^ s 0 ∧ t 2 = s 2 ^^^ s 0 ∧ t 3 = s 3 ^^^ s 4 ∧
    t 4 = s 4 ^^^ s 5 ^^^ s 1 ∧ t 5 = s 5 ^^^ s 1 ∧ t 6 = s 6 ^^^ s 7 ^^^ s 3 ^^^ (s 1 <<< A) ∧
    t 7 = (s 7 ^^^ s 3).rotateLeft B

/-- R193: `T` of XOROSHIRO in canonical order, word by word, for every N from 2 on (R194 is N = 2). -/
def Obligations.XoroshiroStep : Prop :=
  ∀ (c : Config) (A B C : Nat), c.wf = true → c.stepFn = .xoroshiro A B C → ∀ v : Bits c.n,
    let s := getWord c.W v
    let sf := s (c.N - 1) ^^^ s 0
    let t := getWord c.W (stepT c v)
    (∀ i, i + 3 ≤ c.N → t i = s (i + 1)) ∧
    t (c.N - 2) = (s 0).rotateLeft A ^^^ sf ^^^ (sf <<< B) ∧
    t (c.N - 1) = sf.rotateLeft C

/-- R190, R197: `T` of a GENERIC unit is the map its data give (the model's form of the parameter, log 3). -/
def Obligations.GenericStepFollowsItsData : Prop :=
  ∀ (c : Config) (g : GenericMap c.n), c.stepFn = .generic g → ∀ v : Bits c.n,
    (∀ w, g.exceptions.lookup v = some w → stepT c v = w) ∧
    (g.exceptions.lookup v = none → stepT c v =
      (List.range g.columns.length).foldl
        (fun acc i => if v.getLsbD i then acc ^^^ g.columns.getD i 0 else acc) 0)

/-- R197: every `T` of R191 to R193 is linear. For GENERIC linearity is the parameter's, not the machine's. -/
def Obligations.FixedStepFunctionsAreLinear : Prop :=
  ∀ c : Config, c.wf = true → (∀ g, c.stepFn ≠ .generic g) → IsLinear (stepT c)

/-- R196: a linear `T` maps 0 to 0, and an all-zero S stays zero under STEP and APPLY, with no error. -/
def Obligations.ZeroStateIsAbsorbing : Prop :=
  ∀ s : State, IsLinear (stepT s.cfg) →
    stepT s.cfg 0 = 0 ∧
    (s.regs.S = 0 →
      exec .step s = .next (s.withRegs { s.regs with S := 0, ECODE := 0, PEND := none }) ∧
      exec .apply s = .next (s.withRegs { s.regs with ACC := 0, S := 0, ECODE := 0, PEND := none }))

/-- R198, R201: APPLY leaves in ACC and in S the XOR of `T^i(S)` over the set bits `i` of R, and changes nothing else. -/
def Obligations.ApplySumsSteppedStates : Prop :=
  ∀ s : State,
    let sum := (List.range s.cfg.n).foldl
      (fun acc i => if s.regs.R.getLsbD i then acc ^^^ (stepT s.cfg)^[i] s.regs.S else acc) 0
    exec .apply s = .next (s.withRegs { s.regs with ACC := sum, S := sum, ECODE := 0, PEND := none })

/-- R26: if `c(x)` is the characteristic polynomial of a linear `T`, then `c(T) = 0` on states (Cayley–Hamilton). -/
def Obligations.CharacteristicPolynomialAnnihilates : Prop :=
  ∀ (n : Nat) (T : Bits n → Bits n) (p : Bits n), IsCharPoly T p → Annihilates T p

/-- R26, R203: for a linear `T` with `c(T) = 0`, applying `x^J mod c(x)` to a state is `J` steps of it, for every J. -/
def Obligations.JumpEqualsSteps : Prop :=
  ∀ (n : Nat) (T : Bits n → Bits n) (p r s : Bits n) (J : Nat), IsLinear T → Annihilates T p →
    toPoly r = Polynomial.X ^ J %ₘ modulus p → applyPoly T r s = T^[J] s

/-- APPLY with R = `r` takes S from `v` to `w`. -/
def Sys2Proof.Machine.State.AppliesTo (s : State) (r v w : Bits s.cfg.n) : Prop :=
  ∃ q : Regs s.cfg, exec .apply (s.withRegs { s.regs with R := r, S := v }) = .next (s.withRegs q) ∧ q.S = w

/-- R203: the jump laws of the machine, when P is the characteristic polynomial of the configured linear `T`. (a) REDUCE and then
APPLY leaves S after J steps, REDUCE.P2 and then APPLY after 2^J steps. (b) Jumps add. (c) APPLY with R = P is n steps. -/
def Obligations.JumpLaws : Prop :=
  ∀ s : State, s.regs.PVALID = true → (s.regs.PMVALID = true → s.regs.PM = powmod s.regs.P) →
    IsCharPoly (stepT s.cfg) s.regs.P →
    (∃ q r : Regs s.cfg, exec .reduce s = .next (s.withRegs q) ∧ exec .apply (s.withRegs q) = .next (s.withRegs r) ∧
      r.S = (stepT s.cfg)^[s.regs.J.toNat] s.regs.S) ∧
    (∃ q r : Regs s.cfg, exec .reduceP2 s = .next (s.withRegs q) ∧ exec .apply (s.withRegs q) = .next (s.withRegs r) ∧
      r.S = (stepT s.cfg)^[2 ^ s.regs.J.toNat] s.regs.S) ∧
    (∀ (J₁ J₂ : Nat) (r₁ r₂ r₁₂ v w₁ w₂ : Bits s.cfg.n),
      toPoly r₁ = Polynomial.X ^ J₁ %ₘ modulus s.regs.P → toPoly r₂ = Polynomial.X ^ J₂ %ₘ modulus s.regs.P →
      toPoly r₁₂ = Polynomial.X ^ (J₁ + J₂) %ₘ modulus s.regs.P →
      s.AppliesTo r₁ v w₁ → s.AppliesTo r₂ w₁ w₂ → s.AppliesTo r₁₂ v w₂) ∧
    (∀ v, s.AppliesTo s.regs.P v ((stepT s.cfg)^[s.cfg.n] v))

/-! ### Whole-machine rules -/

/-- R102: what each command may write. No command writes J, KEY or RIN; only SELP writes P; only MULX, SQR and REDUCE write R
(R267); only STEP and APPLY write S; only APPLY writes ACC; only RIFFLE writes RLO and RHI; only PRECOMP, SQR and REDUCE write
PM; only LDP and SELP write PVALID; only CLRERR clears ERR or changes OVR; every completion leaves PEND = none. -/
def Obligations.CommandsWriteOnlyTheirTargets : Prop :=
  ∀ (i : Instr) (s : State), ∃ r : Regs s.cfg, exec i s = .next (s.withRegs r) ∧ r.PEND = none ∧
    r.J = s.regs.J ∧ r.KEY = s.regs.KEY ∧ r.RIN = s.regs.RIN ∧
    (i ≠ .selp → r.P = s.regs.P) ∧
    (i ∉ [Instr.mulx, .sqr, .reduce, .reduceP2] → r.R = s.regs.R) ∧
    (i ∉ [Instr.step, .apply] → r.S = s.regs.S) ∧
    (i ≠ .apply → r.ACC = s.regs.ACC) ∧
    (i ≠ .riffle → r.RLO = s.regs.RLO ∧ r.RHI = s.regs.RHI) ∧
    (i ∉ [Instr.precomp, .sqr, .reduce, .reduceP2] → r.PM = s.regs.PM) ∧
    (i ∉ [Instr.ldp, .selp, .precomp, .sqr, .reduce, .reduceP2] → r.PMVALID = s.regs.PMVALID) ∧
    (i ∉ [Instr.ldp, .selp] → r.PVALID = s.regs.PVALID) ∧
    (i ≠ .clrerr → r.OVR = s.regs.OVR ∧ (s.regs.ERR = true → r.ERR = true))

/-- R102, R165: APPLY reads only R and S, STEP only S, RIFFLE only RIN: on registers that agree there, whatever the others hold (P and
PVALID among them, C6), they give the same results. With coefficients committed, MULX and SQR read only P and R, and REDUCE and
REDUCE.P2 only P and J: whether the table is already built makes no difference, where PMVALID tells the truth (R146). -/
def Obligations.ResultsDependOnlyOnTheOperands : Prop :=
  ∀ (s : State) (r : Regs s.cfg),
    (r.R = s.regs.R → r.S = s.regs.S →
      ∃ q q' : Regs s.cfg, exec .apply s = .next (s.withRegs q) ∧ exec .apply (s.withRegs r) = .next (s.withRegs q') ∧
        q'.S = q.S ∧ q'.ACC = q.ACC) ∧
    (r.S = s.regs.S →
      ∃ q q' : Regs s.cfg, exec .step s = .next (s.withRegs q) ∧ exec .step (s.withRegs r) = .next (s.withRegs q') ∧
        q'.S = q.S) ∧
    (r.RIN = s.regs.RIN →
      ∃ q q' : Regs s.cfg, exec .riffle s = .next (s.withRegs q) ∧ exec .riffle (s.withRegs r) = .next (s.withRegs q') ∧
        q'.RLO = q.RLO ∧ q'.RHI = q.RHI) ∧
    (r.P = s.regs.P → r.PVALID = true → s.regs.PVALID = true → (r.PMVALID = true → r.PM = powmod r.P) →
      (s.regs.PMVALID = true → s.regs.PM = powmod s.regs.P) → ∀ i : Instr,
      (i ∈ [Instr.mulx, .sqr] ∧ r.R = s.regs.R ∨ i ∈ [Instr.reduce, .reduceP2] ∧ r.J = s.regs.J) →
      ∃ q q' : Regs s.cfg, exec i s = .next (s.withRegs q) ∧ exec i (s.withRegs r) = .next (s.withRegs q') ∧ q'.R = q.R)

/-- R43, R240: ERR and OVR are sticky: a step clears either only by the reset input or by CLRERR completing. -/
def Obligations.StickyFlagsStay : Prop :=
  ∀ s t : State, step s = .next t →
    (s.regs.ERR = true ∧ t.regs.ERR = false ∨ s.regs.OVR = true ∧ t.regs.OVR = false) →
    (∃ ts, s.turns = .reset :: ts) ∨ s.Completes .clrerr t

/-- R33: PVALID falls only by the reset input, by SELP completing, or by a host write to a word of P while BUSY = 0; it rises only by
LDP or SELP completing. -/
def Obligations.PvalidChangesOnlyByItsSources : Prop :=
  ∀ s t : State, step s = .next t →
    (s.regs.PVALID = true → t.regs.PVALID = false →
      (∃ ts, s.turns = .reset :: ts) ∨ s.Completes .selp t ∨
      (s.regs.PEND = none ∧ ∃ k d, k < s.cfg.N ∧ s.HostWrites (BitVec.ofNat 12 (0x100 + k)) d t)) ∧
    (s.regs.PVALID = false → t.regs.PVALID = true → s.Completes .ldp t ∨ s.Completes .selp t)

/-- R38: ACC changes only in a step that is APPLY completing, or the reset input's: no host write and no other command reaches it. -/
def Obligations.AccChangesOnlyByApply : Prop :=
  ∀ s t : State, step s = .next t → t.regs.ACC.toNat ≠ s.regs.ACC.toNat →
    (∃ ts, s.turns = .reset :: ts) ∨ s.Completes .apply t

/-- R44: a pending command stays pending until the Core performs it or the reset input arrives: no host operation removes or
replaces it. -/
def Obligations.PendingCommandStaysPending : Prop :=
  ∀ (s t : State) (d : Word s.cfg.W) (ts : List Turn), s.regs.PEND = some d → s.turns = .host :: ts → step s = .next t →
    t.regs.PEND.map BitVec.toNat = some d.toNat

/-- R146, R231, R232, R131: every step keeps the invariant of the registers, from every state that has it. -/
def Obligations.InvariantIsKept : Prop :=
  ∀ s t : State, s.regs.Inv → step s = .next t → t.regs.Inv

/-- The registers have the invariant right after reset, in every configuration. -/
def Obligations.InvariantHoldsAtReset : Prop :=
  State.reset.regs.Inv ∧ ∀ (c : Config) (ok : c.wf = true), (State.resetOf c ok).regs.Inv
end

