-- ==== Sys2Proof/Laws/Decode.lean ====
section
/-! SUPPORT. The fields of a command word as numbers (spec/30_encoding.md R100, R105), for any width that holds them, and what the
width of a supported configuration is. -/

namespace Sys2Proof

theorem cmdOp_toNat {W : Nat} (d : Word W) : (cmdOp d).toNat = d.toNat % 16 := by
  simp [cmdOp, BitVec.extractLsb'_toNat]

theorem cmdPow2_eq {W : Nat} (d : Word W) : cmdPow2 d = decide (d.toNat / 16 % 2 = 1) := by
  simp [cmdPow2, BitVec.getLsbD, Nat.testBit_eq_decide_div_mod_eq]

/-- No reserved bit is set in the words below 32 and in no other. -/
theorem cmdRsv_eq_zero {W : Nat} (hW : 8 ≤ W) (d : Word W) : cmdRsv d = 0 ↔ d.toNat < 32 := by
  have hd := d.isLt
  have hlt : d.toNat / 2 ^ 5 < 2 ^ (W - 5) := by
    rw [Nat.div_lt_iff_lt_mul (by norm_num), ← Nat.pow_add, Nat.sub_add_cancel (by omega)]; exact hd
  rw [← BitVec.toNat_inj, cmdRsv, BitVec.extractLsb'_toNat, Nat.shiftRight_eq_div_pow, Nat.mod_eq_of_lt hlt]
  simp

/-- An encoding is the five bits POW2, OP, zero-extended. -/
theorem encode_toNat {W : Nat} (hW : 8 ≤ W) (i : Instr) : (encode W i).toNat = (i.pow2 ++ i.op).toNat := by
  rw [encode, BitVec.toNat_setWidth]
  exact Nat.mod_eq_of_lt (Nat.lt_of_lt_of_le (i.pow2 ++ i.op).isLt (Nat.pow_le_pow_right (by norm_num) (by omega)))

namespace Config
variable {c : Config}

theorem wf_width (h : c.wf = true) : c.W = 8 ∨ c.W = 16 ∨ c.W = 32 ∨ c.W = 64 := by
  simp [wf, wfWidth] at h; tauto

theorem eight_le_width (h : c.wf = true) : 8 ≤ c.W := by
  rcases wf_width h with h | h | h | h <;> omega

theorem wf_words (h : c.wf = true) : 1 ≤ c.N ∧ c.N ≤ 256 := by
  simp [wf, wfWords] at h; tauto

theorem wf_exponentWords (h : c.wf = true) : 1 ≤ c.NJ ∧ c.NJ ≤ 256 := by
  simp [wf, wfJbits] at h; tauto

theorem wf_step (h : c.wf = true) : c.wfStep = true := by
  simp [wf] at h; exact h.2

/-- A register has at least eight bits. -/
theorem eight_le_bits (h : c.wf = true) : 8 ≤ c.n := by
  simpa using Nat.mul_le_mul (wf_words h).1 (eight_le_width h)

end Config

theorem shiftInRange_iff {W k : Nat} : shiftInRange W k = true ↔ 1 ≤ k ∧ k ≤ W - 1 := by simp [shiftInRange]

end Sys2Proof
end

