-- ==== Sys2Proof/Laws/State.lean ====
section
/-! SUPPORT. What each named update of the state and of the registers leaves in each field, so that no proof unfolds a record
update. -/

namespace Sys2Proof.Machine

section withRegs
variable (s : State) (r : Regs s.cfg)

@[simp] theorem State.withRegs_cfg : (s.withRegs r).cfg = s.cfg := rfl
@[simp] theorem State.withRegs_regs : (s.withRegs r).regs = r := rfl
@[simp] theorem State.withRegs_host : (s.withRegs r).host = s.host := rfl
@[simp] theorem State.withRegs_turns : (s.withRegs r).turns = s.turns := rfl
@[simp] theorem State.withRegs_reads : (s.withRegs r).reads = s.reads := rfl
@[simp] theorem State.withRegs_draws : (s.withRegs r).draws = s.draws := rfl
@[simp] theorem State.withRegs_self : s.withRegs s.regs = s := rfl
@[simp] theorem State.withRegs_withRegs (r' : Regs s.cfg) : (s.withRegs r).withRegs r' = s.withRegs r' := rfl

end withRegs

section issued
variable (s : State) (d : Word s.cfg.W)

@[simp] theorem State.issued_cfg : (s.issued d).cfg = s.cfg := rfl
@[simp] theorem State.issued_PEND : (s.issued d).regs.PEND = some d := rfl
@[simp] theorem State.issued_turns : (s.issued d).turns = .core :: s.turns := rfl
@[simp] theorem State.issued_host : (s.issued d).host = s.host := rfl
@[simp] theorem State.issued_reads : (s.issued d).reads = s.reads := rfl
@[simp] theorem State.issued_draws : (s.issued d).draws = s.draws := rfl

end issued

section busRead
variable (s : State) (a : Addr)

@[simp] theorem State.busRead_cfg : (s.busRead a).cfg = s.cfg := rfl
@[simp] theorem State.busRead_regs : (s.busRead a).regs = s.regs := rfl
@[simp] theorem State.busRead_host : (s.busRead a).host = s.host := rfl
@[simp] theorem State.busRead_turns : (s.busRead a).turns = s.turns := rfl
@[simp] theorem State.busRead_reads : (s.busRead a).reads = (a, s.readValue a) :: s.reads := rfl

end busRead

section
variable {c : Config} (r : Regs c)

@[simp] theorem Regs.complete_P : r.complete.P = r.P := rfl
@[simp] theorem Regs.complete_PVALID : r.complete.PVALID = r.PVALID := rfl
@[simp] theorem Regs.complete_PM : r.complete.PM = r.PM := rfl
@[simp] theorem Regs.complete_PMVALID : r.complete.PMVALID = r.PMVALID := rfl
@[simp] theorem Regs.complete_R : r.complete.R = r.R := rfl
@[simp] theorem Regs.complete_S : r.complete.S = r.S := rfl
@[simp] theorem Regs.complete_ACC : r.complete.ACC = r.ACC := rfl
@[simp] theorem Regs.complete_J : r.complete.J = r.J := rfl
@[simp] theorem Regs.complete_KEY : r.complete.KEY = r.KEY := rfl
@[simp] theorem Regs.complete_RIN : r.complete.RIN = r.RIN := rfl
@[simp] theorem Regs.complete_RLO : r.complete.RLO = r.RLO := rfl
@[simp] theorem Regs.complete_RHI : r.complete.RHI = r.RHI := rfl
@[simp] theorem Regs.complete_ERR : r.complete.ERR = r.ERR := rfl
@[simp] theorem Regs.complete_OVR : r.complete.OVR = r.OVR := rfl
@[simp] theorem Regs.complete_ECODE : r.complete.ECODE = 0 := rfl
@[simp] theorem Regs.complete_PEND : r.complete.PEND = none := rfl

@[simp] theorem Regs.fail_P (k : FailCode) : (r.fail k).P = r.P := rfl
@[simp] theorem Regs.fail_PVALID (k : FailCode) : (r.fail k).PVALID = r.PVALID := rfl
@[simp] theorem Regs.fail_PM (k : FailCode) : (r.fail k).PM = r.PM := rfl
@[simp] theorem Regs.fail_PMVALID (k : FailCode) : (r.fail k).PMVALID = r.PMVALID := rfl
@[simp] theorem Regs.fail_R (k : FailCode) : (r.fail k).R = r.R := rfl
@[simp] theorem Regs.fail_S (k : FailCode) : (r.fail k).S = r.S := rfl
@[simp] theorem Regs.fail_ACC (k : FailCode) : (r.fail k).ACC = r.ACC := rfl
@[simp] theorem Regs.fail_J (k : FailCode) : (r.fail k).J = r.J := rfl
@[simp] theorem Regs.fail_KEY (k : FailCode) : (r.fail k).KEY = r.KEY := rfl
@[simp] theorem Regs.fail_RIN (k : FailCode) : (r.fail k).RIN = r.RIN := rfl
@[simp] theorem Regs.fail_RLO (k : FailCode) : (r.fail k).RLO = r.RLO := rfl
@[simp] theorem Regs.fail_RHI (k : FailCode) : (r.fail k).RHI = r.RHI := rfl
@[simp] theorem Regs.fail_ERR (k : FailCode) : (r.fail k).ERR = true := rfl
@[simp] theorem Regs.fail_OVR (k : FailCode) : (r.fail k).OVR = r.OVR := rfl
@[simp] theorem Regs.fail_ECODE (k : FailCode) : (r.fail k).ECODE = failEcode k := rfl
@[simp] theorem Regs.fail_PEND (k : FailCode) : (r.fail k).PEND = none := rfl

@[simp] theorem Regs.ensurePm_P : r.ensurePm.P = r.P := by unfold Regs.ensurePm; split <;> rfl
@[simp] theorem Regs.ensurePm_PVALID : r.ensurePm.PVALID = r.PVALID := by unfold Regs.ensurePm; split <;> rfl
@[simp] theorem Regs.ensurePm_R : r.ensurePm.R = r.R := by unfold Regs.ensurePm; split <;> rfl
@[simp] theorem Regs.ensurePm_S : r.ensurePm.S = r.S := by unfold Regs.ensurePm; split <;> rfl
@[simp] theorem Regs.ensurePm_ACC : r.ensurePm.ACC = r.ACC := by unfold Regs.ensurePm; split <;> rfl
@[simp] theorem Regs.ensurePm_J : r.ensurePm.J = r.J := by unfold Regs.ensurePm; split <;> rfl
@[simp] theorem Regs.ensurePm_KEY : r.ensurePm.KEY = r.KEY := by unfold Regs.ensurePm; split <;> rfl
@[simp] theorem Regs.ensurePm_RIN : r.ensurePm.RIN = r.RIN := by unfold Regs.ensurePm; split <;> rfl
@[simp] theorem Regs.ensurePm_RLO : r.ensurePm.RLO = r.RLO := by unfold Regs.ensurePm; split <;> rfl
@[simp] theorem Regs.ensurePm_RHI : r.ensurePm.RHI = r.RHI := by unfold Regs.ensurePm; split <;> rfl
@[simp] theorem Regs.ensurePm_ERR : r.ensurePm.ERR = r.ERR := by unfold Regs.ensurePm; split <;> rfl
@[simp] theorem Regs.ensurePm_OVR : r.ensurePm.OVR = r.OVR := by unfold Regs.ensurePm; split <;> rfl
@[simp] theorem Regs.ensurePm_ECODE : r.ensurePm.ECODE = r.ECODE := by unfold Regs.ensurePm; split <;> rfl
@[simp] theorem Regs.ensurePm_PEND : r.ensurePm.PEND = r.PEND := by unfold Regs.ensurePm; split <;> rfl
@[simp] theorem Regs.ensurePm_PMVALID : r.ensurePm.PMVALID = true := by
  unfold Regs.ensurePm; split <;> simp_all
theorem Regs.ensurePm_PM : r.ensurePm.PM = if r.PMVALID then r.PM else powmod r.P := by
  unfold Regs.ensurePm; split <;> rfl

/-- The table SQR and REDUCE use is `powmod(P)` wherever PMVALID says the truth (R165). -/
theorem Regs.ensurePm_PM_of_agrees (h : r.PMVALID = true → r.PM = powmod r.P) : r.ensurePm.PM = powmod r.P := by
  rw [Regs.ensurePm_PM]; split
  · exact h ‹_›
  · rfl

theorem Regs.requireCoef_of_valid (r' : Regs c) (h : r.PVALID = true) : r.requireCoef r' = r'.complete := by
  simp [Regs.requireCoef, h]

theorem Regs.requireCoef_of_invalid (r' : Regs c) (h : r.PVALID = false) : r.requireCoef r' = r.fail .nocoef := by
  simp [Regs.requireCoef, h]

/-- Every end of a command clears PEND (R104, R232). -/
@[simp] theorem Regs.requireCoef_PEND (r' : Regs c) : (r.requireCoef r').PEND = none := by
  unfold Regs.requireCoef; split <;> rfl

@[simp] theorem Regs.selp_PEND (o : Option (Bits c.n)) : (r.selp o).PEND = none := by
  cases o <;> rfl

@[simp] theorem Regs.busy_eq_true : r.busy = true ↔ r.PEND ≠ none := by
  unfold Regs.busy; cases r.PEND <;> simp

@[simp] theorem Regs.busy_eq_false : r.busy = false ↔ r.PEND = none := by
  unfold Regs.busy; cases r.PEND <;> simp

end

section reset
variable (c : Config)

@[simp] theorem Regs.reset_P : (Regs.reset c).P = 0 := rfl
@[simp] theorem Regs.reset_PVALID : (Regs.reset c).PVALID = false := rfl
@[simp] theorem Regs.reset_PMVALID : (Regs.reset c).PMVALID = false := rfl
@[simp] theorem Regs.reset_R : (Regs.reset c).R = 1 := rfl
@[simp] theorem Regs.reset_S : (Regs.reset c).S = 1 := rfl
@[simp] theorem Regs.reset_ACC : (Regs.reset c).ACC = 0 := rfl
@[simp] theorem Regs.reset_J : (Regs.reset c).J = 0 := rfl
@[simp] theorem Regs.reset_KEY : (Regs.reset c).KEY = 0 := rfl
@[simp] theorem Regs.reset_RIN : (Regs.reset c).RIN = 0 := rfl
@[simp] theorem Regs.reset_RLO : (Regs.reset c).RLO = 0 := rfl
@[simp] theorem Regs.reset_RHI : (Regs.reset c).RHI = 0 := rfl
@[simp] theorem Regs.reset_ERR : (Regs.reset c).ERR = false := rfl
@[simp] theorem Regs.reset_OVR : (Regs.reset c).OVR = false := rfl
@[simp] theorem Regs.reset_ECODE : (Regs.reset c).ECODE = 0 := rfl
@[simp] theorem Regs.reset_PEND : (Regs.reset c).PEND = none := rfl

end reset

end Sys2Proof.Machine
end

