-- ==== Sys2Proof/Laws/Bus.lean ====
section
/-! SUPPORT. The register map as a case analysis (spec/20_memory.md R72), and what a bus write can do (R76 to R78). -/

namespace Sys2Proof.Machine

theorem addr_split (a : Addr) : a.toNat = (a.extractLsb' 8 4).toNat * 256 + (a.extractLsb' 0 8).toNat := by
  have := a.isLt
  simp [BitVec.extractLsb'_toNat, Nat.shiftRight_eq_div_pow]
  omega

/-- The register map: which word each address names. -/
theorem regAt_cases {c : Config} (h : c.wf = true) (a : Addr) :
    (a.toNat = 0 ∧ regAt c a = .cmd) ∨ (a.toNat = 1 ∧ regAt c a = .status) ∨ (a.toNat = 2 ∧ regAt c a = .key) ∨
    (a.toNat = 3 ∧ regAt c a = .rin) ∨ (a.toNat = 4 ∧ regAt c a = .rlo) ∨ (a.toNat = 5 ∧ regAt c a = .rhi) ∨
    ((0x100 ≤ a.toNat ∧ a.toNat < 0x100 + c.N) ∧ regAt c a = .p (a.toNat - 0x100)) ∨
    ((0x200 ≤ a.toNat ∧ a.toNat < 0x200 + c.N) ∧ regAt c a = .r (a.toNat - 0x200)) ∨
    ((0x300 ≤ a.toNat ∧ a.toNat < 0x300 + c.N) ∧ regAt c a = .s (a.toNat - 0x300)) ∨
    ((0x400 ≤ a.toNat ∧ a.toNat < 0x400 + c.N) ∧ regAt c a = .acc (a.toNat - 0x400)) ∨
    ((0x500 ≤ a.toNat ∧ a.toNat < 0x500 + c.NJ) ∧ regAt c a = .j (a.toNat - 0x500)) ∨
    ((5 < a.toNat ∧ ¬ (0x100 ≤ a.toNat ∧ a.toNat < 0x100 + c.N) ∧ ¬ (0x200 ≤ a.toNat ∧ a.toNat < 0x200 + c.N) ∧
      ¬ (0x300 ≤ a.toNat ∧ a.toNat < 0x300 + c.N) ∧ ¬ (0x400 ≤ a.toNat ∧ a.toNat < 0x400 + c.N) ∧
      ¬ (0x500 ≤ a.toNat ∧ a.toNat < 0x500 + c.NJ)) ∧ regAt c a = .unmapped) := by
  have hN := (Config.wf_words h).2
  have hJ := (Config.wf_exponentWords h).2
  have hs := addr_split a
  have hk := (a.extractLsb' 0 8).isLt
  have hb := (a.extractLsb' 8 4).isLt
  unfold regAt
  generalize (a.extractLsb' 0 8).toNat = k at *
  generalize (a.extractLsb' 8 4).toNat = b at *
  generalize a.toNat = x at *
  generalize c.NJ = nj at *
  generalize c.N = N at *
  have sub : ∀ base, x = base + k → x - base = k := fun base e => by omega
  rcases b with _ | _ | _ | _ | _ | _ | b
  · rcases k with _ | _ | _ | _ | _ | _ | k <;> simp <;> omega
  · by_cases hh : k < N
    · simp [hh, sub 0x100 (by omega)]; omega
    · simp [hh]; omega
  · by_cases hh : k < N
    · simp [hh, sub 0x200 (by omega)]; omega
    · simp [hh]; omega
  · by_cases hh : k < N
    · simp [hh, sub 0x300 (by omega)]; omega
    · simp [hh]; omega
  · by_cases hh : k < N
    · simp [hh, sub 0x400 (by omega)]; omega
    · simp [hh]; omega
  · by_cases hh : k < nj
    · simp [hh, sub 0x500 (by omega)]; omega
    · simp [hh]; omega
  · simp; omega

section
variable {c : Config} (r : Regs c) (a : Addr) (d : Word c.W)

theorem Regs.busWrite_of_busy (h : r.PEND ≠ none) : r.busWrite a d = { r with OVR := true } := by
  rw [Regs.busWrite, if_pos (by simpa using h)]

theorem Regs.busWrite_of_idle (h : r.PEND = none) : r.busWrite a d = r.writeWord d (regAt c a) := by
  rw [Regs.busWrite, if_neg (by simpa using h)]

/-- No bus write reaches the read-only registers, the power_mod table, ERR or ECODE. -/
theorem Regs.busWrite_frame :
    (r.busWrite a d).PM = r.PM ∧ (r.busWrite a d).ACC = r.ACC ∧ (r.busWrite a d).RLO = r.RLO ∧
    (r.busWrite a d).RHI = r.RHI ∧ (r.busWrite a d).ERR = r.ERR ∧ (r.busWrite a d).ECODE = r.ECODE := by
  unfold Regs.busWrite
  split
  · exact ⟨rfl, rfl, rfl, rfl, rfl, rfl⟩
  · cases regAt c a <;> exact ⟨rfl, rfl, rfl, rfl, rfl, rfl⟩

/-- A bus write never clears OVR. -/
theorem Regs.busWrite_OVR (h : r.OVR = true) : (r.busWrite a d).OVR = true := by
  unfold Regs.busWrite
  split
  · rfl
  · cases regAt c a <;> exact h

/-- A bus write leaves P, PVALID and PMVALID as they were, or clears both flags. -/
theorem Regs.busWrite_coefficients :
    ((r.busWrite a d).P = r.P ∧ (r.busWrite a d).PVALID = r.PVALID ∧ (r.busWrite a d).PMVALID = r.PMVALID) ∨
    ((r.busWrite a d).PVALID = false ∧ (r.busWrite a d).PMVALID = false) := by
  unfold Regs.busWrite
  split
  · exact .inl ⟨rfl, rfl, rfl⟩
  · cases regAt c a <;> first | exact .inl ⟨rfl, rfl, rfl⟩ | exact .inr ⟨rfl, rfl⟩

end

end Sys2Proof.Machine
end

