-- ==== Sys2Proof/Laws/PerInstr.lean ====
section
/-! SUPPORT. Statements about every command as syntax, one lemma per constructor. -/

namespace Sys2Proof.Laws

/-- The encoding of a command is a legal word at every supported width, and it decodes to the command (spec/30_encoding.md R101,
R105, R107). -/
def EncodingLegal.Statement (i : Instr) : Prop :=
  ∀ W ∈ [8, 16, 32, 64], legal (encode W i) = true ∧ decode (encode W i) = .ok i

namespace EncodingLegal

theorem nop : Statement .nop := by unfold Statement; decide
theorem ldp : Statement .ldp := by unfold Statement; decide
theorem selp : Statement .selp := by unfold Statement; decide
theorem precomp : Statement .precomp := by unfold Statement; decide
theorem mulx : Statement .mulx := by unfold Statement; decide
theorem sqr : Statement .sqr := by unfold Statement; decide
theorem reduce : Statement .reduce := by unfold Statement; decide
theorem reduceP2 : Statement .reduceP2 := by unfold Statement; decide
theorem riffle : Statement .riffle := by unfold Statement; decide
theorem step : Statement .step := by unfold Statement; decide
theorem apply : Statement .apply := by unfold Statement; decide
theorem clrerr : Statement .clrerr := by unfold Statement; decide

end EncodingLegal
end Sys2Proof.Laws
end

