-- ==== Sys2Proof/Laws/Words.lean ====
section
/-! SUPPORT. Bits and words of multiword registers: what `packBits`, `getWord`, `setWord` and `packWords` hold at each bit and in
each word (spec/20_memory.md R73). -/

namespace Sys2Proof.Machine

theorem packBits_getLsbD (f : Nat → Bool) (w i : Nat) : (packBits f w).getLsbD i = (decide (i < w) && f i) := by
  induction w with
  | zero => simp [packBits]
  | succ w ih =>
    rw [packBits, BitVec.getLsbD_cons]
    split
    · subst_vars; simp
    · rw [ih]; congr 1; simp; omega

theorem getWord_getLsbD {m : Nat} (W : Nat) (v : Bits m) (k i : Nat) :
    (getWord W v k).getLsbD i = (decide (i < W) && v.getLsbD (k * W + i)) := by
  simp [getWord, BitVec.getLsbD_extractLsb']

theorem setWord_getLsbD {m W : Nat} (v : Bits m) (k : Nat) (d : Word W) (i : Nat) :
    (setWord v k d).getLsbD i =
      (decide (i < m) && if k * W ≤ i ∧ i < k * W + W then d.getLsbD (i - k * W) else v.getLsbD i) := by
  simp only [setWord, BitVec.getLsbD_or, BitVec.getLsbD_and, BitVec.getLsbD_not, BitVec.getLsbD_shiftLeft,
    BitVec.getLsbD_setWidth, BitVec.getLsbD_allOnes]
  by_cases hm : i < m
  · by_cases hk : i < k * W
    · have : ¬ (k * W ≤ i) := by omega
      simp [hm, hk, this]
    · by_cases hu : i < k * W + W
      · have h1 : k * W ≤ i := by omega
        have h2 : i - k * W < W := by omega
        have h3 : i - k * W < m := by omega
        simp [hm, hk, hu, h1, h2, h3]
      · have h2 : ¬ (i - k * W < W) := by omega
        have h4 : d.getLsbD (i - k * W) = false := BitVec.getLsbD_of_ge _ _ (by omega)
        simp [hm, hk, hu, h2, h4]
  · have h4 : v.getLsbD i = false := BitVec.getLsbD_of_ge _ _ (by omega)
    simp [hm, h4]

theorem packWords_getLsbD {W : Nat} (m : Nat) (f : Nat → Word W) (cnt i : Nat) (hW : 0 < W) :
    (packWords m f cnt).getLsbD i = (decide (i < m) && decide (i < cnt * W) && (f (i / W)).getLsbD (i % W)) := by
  induction cnt with
  | zero => simp [packWords]
  | succ cnt ih =>
    rw [packWords, BitVec.getLsbD_or, ih, BitVec.getLsbD_shiftLeft, BitVec.getLsbD_setWidth]
    by_cases hm : i < m
    · by_cases hk : i < cnt * W
      · have : i < (cnt + 1) * W := by rw [Nat.succ_mul]; omega
        simp [hm, hk, this]
      · by_cases hu : i < (cnt + 1) * W
        · have hu' : i < cnt * W + W := by rw [Nat.succ_mul] at hu; exact hu
          have hd : i / W = cnt := by
            rw [Nat.div_eq_iff hW]; omega
          have hr : i % W = i - cnt * W := by
            rw [Nat.mod_eq_sub_mul_div, hd, Nat.mul_comm]
          have h3 : i - cnt * W < m := by omega
          simp [hm, hk, hu, hd, hr, h3]
        · have hu' : cnt * W + W ≤ i := by rw [Nat.succ_mul] at hu; omega
          have h4 : (f cnt).getLsbD (i - cnt * W) = false := BitVec.getLsbD_of_ge _ _ (by omega)
          simp [hm, hk, hu, h4]
    · simp [hm]

/-- A word of a packed value is the word that was packed. -/
theorem getWord_packWords {W : Nat} (m : Nat) (f : Nat → Word W) (cnt k : Nat) (hk : k < cnt) (hm : cnt * W ≤ m) :
    getWord W (packWords m f cnt) k = f k := by
  apply BitVec.eq_of_getLsbD_eq
  intro i hi
  have hlt : k * W + i < cnt * W := by
    have : (k + 1) * W ≤ cnt * W := Nat.mul_le_mul_right W hk
    rw [Nat.succ_mul] at this; omega
  have hd : (k * W + i) / W = k := by
    rw [Nat.add_comm, Nat.add_mul_div_right _ _ (by omega), Nat.div_eq_of_lt hi, Nat.zero_add]
  have hr : (k * W + i) % W = i := by
    rw [Nat.add_comm, Nat.add_mul_mod_self_right, Nat.mod_eq_of_lt hi]
  rw [getWord_getLsbD, packWords_getLsbD _ _ _ _ (by omega), hd, hr]
  simp [hi, hlt, show k * W + i < m by omega]

/-- Reading the word just written. -/
theorem getWord_setWord_same {m W : Nat} (v : Bits m) (k : Nat) (d : Word W) (h : k * W + W ≤ m) :
    getWord W (setWord v k d) k = d := by
  apply BitVec.eq_of_getLsbD_eq
  intro i hi
  rw [getWord_getLsbD, setWord_getLsbD]
  simp [hi, show k * W + i < m by omega]

/-- Reading another word. -/
theorem getWord_setWord_other {m W : Nat} (v : Bits m) (k j : Nat) (d : Word W) (hjk : j ≠ k) :
    getWord W (setWord v k d) j = getWord W v j := by
  apply BitVec.eq_of_getLsbD_eq
  intro i hi
  rw [getWord_getLsbD, getWord_getLsbD, setWord_getLsbD]
  have hout : ¬ (k * W ≤ j * W + i ∧ j * W + i < k * W + W) := by
    rintro ⟨h1, h2⟩
    rcases Nat.lt_or_gt_of_ne hjk with h | h
    · have : (j + 1) * W ≤ k * W := Nat.mul_le_mul_right W h
      rw [Nat.succ_mul] at this; omega
    · have : (k + 1) * W ≤ j * W := Nat.mul_le_mul_right W h
      rw [Nat.succ_mul] at this; omega
  rw [if_neg hout]
  by_cases hm : j * W + i < m
  · simp [hm]
  · simp [BitVec.getLsbD_of_ge v (j * W + i) (by omega)]

/-- A register value is its words. -/
theorem eq_of_words {N W : Nat} (v w : Bits (N * W)) (h : ∀ k < N, getWord W v k = getWord W w k) : v = w := by
  apply BitVec.eq_of_getLsbD_eq
  intro i hi
  have hW : 0 < W := Nat.pos_of_ne_zero (by rintro rfl; simp at hi)
  have hk : i / W < N := (Nat.div_lt_iff_lt_mul hW).2 hi
  have := congrArg (fun x => x.getLsbD (i % W)) (h _ hk)
  simp only [getWord_getLsbD, Nat.mod_lt _ hW, decide_true, Bool.true_and, Nat.div_add_mod'] at this
  exact this

theorem getWord_xor {m : Nat} (W : Nat) (v w : Bits m) (k : Nat) :
    getWord W (v ^^^ w) k = getWord W v k ^^^ getWord W w k := by
  apply BitVec.eq_of_getLsbD_eq
  intro i hi
  simp only [getWord_getLsbD, BitVec.getLsbD_xor, hi, decide_true, Bool.true_and]

@[simp] theorem getWord_zero {m : Nat} (W k : Nat) : getWord W (0 : Bits m) k = 0 := by
  apply BitVec.eq_of_getLsbD_eq
  intro i hi
  rw [getWord_getLsbD]; simp

end Sys2Proof.Machine
end

