-- ==== Sys2Proof/Laws/Polynomial.lean ====
section
/-! SUPPORT. The loops of the model in closed form, and register values as polynomials over GF(2) (spec/00_scope.md R16, R22). -/

namespace Sys2Proof.Machine

/-- The loop of R166 goes over the bits of `j` below `m`, from the top down. -/
theorem reduceLoop_eq_foldl {n : Nat} (square timesX : Bits n → Bits n) (j m : Nat) (r : Bits n) :
    reduceLoop square timesX j m r =
      (List.range m).reverse.foldl (fun r b => if j.testBit b then timesX (square r) else square r) r := by
  induction m generalizing r with
  | zero => rfl
  | succ m ih => rw [reduceLoop, ih, List.range_succ, List.reverse_append]; rfl

theorem mulxChain_getElem {n : Nat} (p : Bits n) (k : Nat) (v : Bits n) (i : Nat) (h : i < (mulxChain p k v).length) :
    (mulxChain p k v)[i] = (mulx p)^[i] v := by
  induction k generalizing v i with
  | zero => simp [mulxChain] at h
  | succ k ih =>
    cases i with
    | zero => rfl
    | succ i => exact ih (mulx p v) i (by simpa [mulxChain] using h)

/-- Entry `i` of the power_mod table is P multiplied by x `i` times. -/
theorem powmod_getElem {n : Nat} (p : Bits n) (i : Nat) (h : i < n) : (powmod p)[i] = (mulx p)^[i] p := by
  simp [powmod, mulxChain_getElem]

theorem applyLoop_eq_foldl {n : Nat} (T : Bits n → Bits n) (r : Bits n) (cnt i : Nat) (acc s : Bits n) :
    (applyLoop T r cnt i acc (T^[i] s)).1 =
      (List.range' i cnt).foldl (fun acc i => if r.getLsbD i then acc ^^^ T^[i] s else acc) acc := by
  induction cnt generalizing i acc with
  | zero => rfl
  | succ cnt ih => rw [applyLoop, List.range'_succ, List.foldl_cons, ← ih, Function.iterate_succ_apply']

/-- `apply(r, s)` (R198) is a sum of stepped states. -/
theorem applyPoly_eq_foldl {n : Nat} (T : Bits n → Bits n) (r s : Bits n) :
    applyPoly T r s = (List.range n).foldl (fun acc i => if r.getLsbD i then acc ^^^ T^[i] s else acc) 0 := by
  rw [applyPoly, List.range_eq_range', ← applyLoop_eq_foldl]; rfl

/-- A spread word holds the chosen half at its even bits and zeros at its odd bits (R130). -/
theorem spread_getLsbD {W : Nat} (w : Word W) (off i : Nat) :
    (spread w off).getLsbD i = (decide (i < W) && (i % 2 == 0 && w.getLsbD (off + i / 2))) :=
  packBits_getLsbD _ W i

end Sys2Proof.Machine

namespace Sys2Proof
open Polynomial

theorem coeff_toPoly {n : Nat} (v : Bits n) (i : Nat) : (toPoly v).coeff i = if v.getLsbD i then 1 else 0 := by
  have term : ∀ j ∈ Finset.range n, (if v.getLsbD j then (X : (ZMod 2)[X]) ^ j else 0).coeff i =
      if j = i then (if v.getLsbD i then 1 else 0) else 0 := by
    intro j _
    by_cases h : j = i
    · subst h; split <;> simp
    · rw [if_neg h]; split
      · rw [coeff_X_pow, if_neg (Ne.symm h)]
      · exact coeff_zero i
  rw [toPoly, finsetSum_coeff, Finset.sum_congr rfl term, Finset.sum_ite_eq']
  by_cases h : i < n
  · rw [if_pos (by simpa using h)]
  · rw [BitVec.getLsbD_of_ge _ _ (by omega)]; simp

theorem toPoly_injective {n : Nat} {v w : Bits n} (h : toPoly v = toPoly w) : v = w := by
  apply BitVec.eq_of_getLsbD_eq
  intro i _
  have := congrArg (fun f => f.coeff i) h
  simp only [coeff_toPoly] at this
  cases h1 : v.getLsbD i <;> cases h2 : w.getLsbD i <;> simp_all

theorem toPoly_xor {n : Nat} (v w : Bits n) : toPoly (v ^^^ w) = toPoly v + toPoly w := by
  ext i
  rw [coeff_add, coeff_toPoly, coeff_toPoly, coeff_toPoly, BitVec.getLsbD_xor]
  cases v.getLsbD i <;> cases w.getLsbD i <;> decide

@[simp] theorem toPoly_zero {n : Nat} : toPoly (0 : Bits n) = 0 := by
  ext i; simp [coeff_toPoly]

theorem degree_toPoly_lt {n : Nat} (v : Bits n) : (toPoly v).degree < n := by
  rw [degree_lt_iff_coeff_zero]
  intro m hm
  rw [coeff_toPoly, BitVec.getLsbD_of_ge _ _ hm]; simp

theorem monic_modulus {n : Nat} (p : Bits n) : (modulus p).Monic := monic_X_pow_add (degree_toPoly_lt p)

theorem degree_modulus {n : Nat} (p : Bits n) : (modulus p).degree = n := by
  rw [modulus, degree_add_eq_left_of_degree_lt] <;> rw [degree_X_pow]
  exact degree_toPoly_lt p

/-- A register value is already reduced. -/
theorem toPoly_modByMonic {n : Nat} (p v : Bits n) : toPoly v %ₘ modulus p = toPoly v := by
  rw [modByMonic_eq_self_iff (monic_modulus p), degree_modulus]; exact degree_toPoly_lt v

end Sys2Proof
end

