-- ==== Sys2Proof/Laws/Step.lean ====
section
/-! SUPPORT. What one step can do, said once: no step unfolds again in a proof that cites `step_cases`. -/

namespace Sys2Proof.Machine

/-- A command answers a next state that differs in the registers only. -/
theorem exec_next (i : Instr) (s : State) : ∃ r, exec i s = .next (s.withRegs r) := by
  cases i <;> exact ⟨_, rfl⟩

/-- What the Core did in its turn: nothing, or the pending word. -/
def CoreDid (s t : State) (r : Regs s.cfg) : Prop :=
  (s.regs.PEND = none ∧ r = s.regs) ∨
  ∃ d, s.regs.PEND = some d ∧
    ((∃ i, decode d = .ok i ∧ exec i s = .next t) ∨ ((∃ e, decode d = .error e) ∧ r = s.regs.fail .illegal))

theorem coreTurn_cases (s t : State) (h : coreTurn s = .next t) : ∃ r, t = s.withRegs r ∧ CoreDid s t r := by
  unfold coreTurn at h
  cases hp : s.regs.PEND with
  | none =>
    simp only [hp] at h; cases h
    exact ⟨s.regs, rfl, .inl ⟨hp, rfl⟩⟩
  | some d =>
    simp only [hp, performWord] at h
    cases hd : decode d with
    | ok i =>
      simp only [hd] at h
      obtain ⟨r, hr⟩ := exec_next i s
      refine ⟨r, Host.Outcome.next.inj (h.symm.trans hr), .inr ⟨d, hp, .inl ⟨i, hd, h⟩⟩⟩
    | error e =>
      simp only [hd] at h; cases h
      exact ⟨_, rfl, .inr ⟨d, hp, .inr ⟨⟨e, hd⟩, rfl⟩⟩⟩

/-- The Host's turn writes registers only through a bus write. -/
theorem hostTurn_cases (s : State) :
    (∃ hs rs ds, hostTurn s = { s with host := hs, reads := rs, draws := ds }) ∨
    (∃ a d rest, s.host = .wr a d :: rest ∧ hostTurn s = { s with regs := s.regs.busWrite a d, host := rest }) := by
  unfold hostTurn
  cases hl : s.host with
  | nil => exact .inl ⟨s.host, s.reads, s.draws, rfl⟩
  | cons op rest =>
    cases op with
    | wr a d => exact .inr ⟨a, d, rest, rfl, rfl⟩
    | rd a => exact .inl ⟨_, _, _, rfl⟩
    | wait =>
      simp only [hostOp]
      split
      · exact .inl ⟨s.host, s.reads, s.draws, rfl⟩
      · exact .inl ⟨rest, s.reads, s.draws, rfl⟩

/-- Everything a step can do: the reset input; the Core's turn; the Host's turn. `ts` is the order of turns that is left. -/
theorem step_cases (s t : State) (h : step s = .next t) :
    (∃ ts, s.turns = .reset :: ts ∧ t = { s with regs := Regs.reset s.cfg, turns := ts }) ∨
    (∃ ts, (s.turns = .core :: ts ∨ s.turns = [] ∧ ts = []) ∧
      ∃ r, t = { s with regs := r, turns := ts } ∧ CoreDid { s with turns := ts } t r) ∨
    (∃ ts, (s.turns = .host :: ts ∨ s.turns = [] ∧ ts = [] ∧ s.regs.PEND = none) ∧
      ((∃ hs rs ds, t = { s with host := hs, reads := rs, draws := ds, turns := ts }) ∨
        ∃ a d rest, s.host = .wr a d :: rest ∧ t = { s with regs := s.regs.busWrite a d, host := rest, turns := ts })) := by
  unfold step move at h
  split at h
  · rename_i ts ht; cases h
    exact .inr (.inr ⟨ts, .inl ht, hostTurn_cases { s with turns := ts }⟩)
  · rename_i ts ht
    exact .inr (.inl ⟨ts, .inl ht, coreTurn_cases { s with turns := ts } t h⟩)
  · rename_i ts ht; cases h
    exact .inl ⟨ts, ht, rfl⟩
  · rename_i ht
    have e : s = { s with turns := [] } := by rw [← ht]
    split at h
    · rw [e] at h
      exact .inr (.inl ⟨[], .inr ⟨ht, rfl⟩, coreTurn_cases _ t h⟩)
    · rename_i hb
      rw [e] at h; cases h
      exact .inr (.inr ⟨[], .inr ⟨ht, rfl, by simpa using hb⟩, hostTurn_cases { s with turns := [] }⟩)

theorem run_succ (M : Host.Core) (k : Nat) (s t : M.State) (h : M.step s = .next t) : M.run (k + 1) s = M.run k t := by
  rw [Host.Core.run, h]

/-- One step of a run. -/
theorem run_next {k : Nat} {s t : State} (h : step s = .next t) : core.run (k + 1) s = core.run k t :=
  run_succ core k s t h

end Sys2Proof.Machine
end

