-- ==== Sys2Proof/Laws/StepUnit.lean ====
section
/-! SUPPORT. The step unit: rotation, sums of words, linear maps, and that the data of a GENERIC unit can give every map. -/

namespace Sys2Proof.Machine

/-- The spec's rotation is the library's. -/
theorem rotl_eq_rotateLeft {W k : Nat} (a : Word W) (h : 1 ≤ k ∧ k ≤ W - 1) : rotl a k = a.rotateLeft k := by
  rw [rotl, BitVec.rotateLeft, BitVec.rotateLeftAux, Nat.mod_eq_of_lt (by omega)]

theorem packWords_xor {W : Nat} (hW : 0 < W) (m : Nat) (f g : Nat → Word W) (cnt : Nat) :
    packWords m f cnt ^^^ packWords m g cnt = packWords m (fun i => f i ^^^ g i) cnt := by
  apply BitVec.eq_of_getLsbD_eq
  intro i _
  simp only [BitVec.getLsbD_xor, packWords_getLsbD _ _ _ _ hW]
  cases decide (i < m) <;> cases decide (i < cnt * W) <;> simp

theorem rotl_xor {W k : Nat} (a b : Word W) : rotl (a ^^^ b) k = rotl a k ^^^ rotl b k := by
  apply BitVec.eq_of_getLsbD_eq
  intro i hi
  simp only [rotl, BitVec.getLsbD_or, BitVec.getLsbD_xor, BitVec.getLsbD_shiftLeft, BitVec.getLsbD_ushiftRight]
  by_cases hk : i < k
  · simp [hi, hk]
  · have hge : W ≤ W - k + i := by omega
    rw [BitVec.getLsbD_of_ge a _ hge, BitVec.getLsbD_of_ge b _ hge]
    simp [hi, hk]

end Sys2Proof.Machine

namespace Sys2Proof

theorem IsLinear.map_zero {n : Nat} {T : Bits n → Bits n} (h : IsLinear T) : T 0 = 0 := by
  simpa using h 0 0

theorem IsLinear.iterate_zero {n : Nat} {T : Bits n → Bits n} (h : IsLinear T) (i : Nat) : T^[i] 0 = 0 := by
  induction i with
  | zero => rfl
  | succ i ih => rw [Function.iterate_succ_apply, h.map_zero]; exact ih

/-- The sum of the columns is linear in the bits that select them. -/
theorem Machine.xorColumns_xor {n : Nat} (a b : Bits n) (i : Nat) (cols : List (Bits n)) :
    Machine.xorColumns (a ^^^ b) i cols = Machine.xorColumns a i cols ^^^ Machine.xorColumns b i cols := by
  induction cols generalizing i with
  | nil => exact (BitVec.xor_self).symm
  | cons m ms ih =>
    have sel : (if (a ^^^ b).getLsbD i then m else 0) = (if a.getLsbD i then m else 0) ^^^ (if b.getLsbD i then m else 0) := by
      rw [BitVec.getLsbD_xor]
      cases a.getLsbD i <;> cases b.getLsbD i <;> simp
    rw [Machine.xorColumns, Machine.xorColumns, Machine.xorColumns, ih, sel]
    ac_rfl

namespace Laws.GenericMap

/-- A GENERIC map with no exception is linear (R197). -/
theorem linear_of_no_exception {n : Nat} (cols : List (Bits n)) : IsLinear (Machine.genericStep ⟨cols, []⟩) :=
  fun a b => Machine.xorColumns_xor a b 0 cols

theorem lookup_graph {n : Nat} (f : Bits n → Bits n) (v : Bits n) (l : List (Bits n)) (h : v ∈ l) :
    (l.map fun w => (w, f w)).lookup v = some (f v) := by
  induction l with
  | nil => simp at h
  | cons w l ih =>
    rw [List.map_cons, List.lookup_cons]
    by_cases hw : v = w
    · subst hw; simp
    · simp only [beq_eq_false_iff_ne.2 hw]
      exact ih ((List.mem_cons.1 h).resolve_left hw)

/-- The data of a GENERIC unit give every map `Bits n → Bits n` (R190, D33, log 3). -/
theorem represents_every_map {n : Nat} (f : Bits n → Bits n) : ∃ g : GenericMap n, ∀ v, Machine.genericStep g v = f v := by
  refine ⟨⟨[], (List.finRange (2 ^ n)).map fun k => (BitVec.ofFin k, f (BitVec.ofFin k))⟩, fun v => ?_⟩
  have h := lookup_graph f v ((List.finRange (2 ^ n)).map BitVec.ofFin) (by simp)
  rw [List.map_map] at h
  unfold Machine.genericStep
  have e : ((List.finRange (2 ^ n)).map fun k => (BitVec.ofFin k, f (BitVec.ofFin k))).lookup v = some (f v) := h
  rw [e]

end Laws.GenericMap
end Sys2Proof
end

