-- ==== Sys2Proof/Tests/Slice0.lean ====
section
/-! SUPPORT. Tests. Expected values come from spec/95_test_vectors.md and from the spec's rules by hand, never from the model; where a
test's source is another one its comment says so. Then, for each obligation that has hypotheses, a concrete state or value that meets
them (`witness_…`). -/

namespace Sys2Proof.Tests
open Machine

/-! ### Configurations (spec/95_test_vectors.md) and small states -/

/-- TOY8: the Galois LFSR of `x^8 + 0x1B`, and a COEF_ROM with one entry. -/
def toy8 : Config where
  W := 8
  N := 1
  JBITS := 64
  stepFn := .generic ⟨[0x02, 0x04, 0x08, 0x10, 0x20, 0x40, 0x80, 0x1B], []⟩
  coefRom := [(5, 0x1B)]

/-- TOY16. -/
def toy16 : Config where
  W := 8
  N := 2
  JBITS := 64
  stepFn := .xoroshiro 2 2 3
  coefRom := []

/-- XR128. -/
def xr128 : Config where
  W := 64
  N := 2
  JBITS := 64
  stepFn := .xoroshiro 24 16 37
  coefRom := []

/-- XOSHIRO with N = 8 (A and B as in section 1.3). -/
def xs512 : Config where
  W := 64
  N := 8
  JBITS := 64
  stepFn := .xoshiro 11 21
  coefRom := []

/-- A GENERIC unit whose map `v ↦ v ^ (v >> 1)` is linear, but for one exception: 0 goes to 7. -/
def toyAffine : Config where
  W := 8
  N := 1
  JBITS := 8
  stepFn := .generic ⟨[0x01, 0x03, 0x06, 0x0C, 0x18, 0x30, 0x60, 0xC0], [(0, 7)]⟩
  coefRom := []

/-- The same map without the exception: a linear map with characteristic polynomial `(x + 1)^8 = x^8 + 1`. -/
def toyGray : Config where
  W := 8
  N := 1
  JBITS := 8
  stepFn := .generic ⟨[0x01, 0x03, 0x06, 0x0C, 0x18, 0x30, 0x60, 0xC0], []⟩
  coefRom := []

/-- A machine with the registers `r`. -/
def at8 (r : Regs toy8) (turns : List Turn := []) (host : List (HostOp 8) := []) : State := ⟨toy8, by decide, r, host, turns, [], 0⟩
def at16 (r : Regs toy16) : State := ⟨toy16, by decide, r, [], [], [], 0⟩
def at256 (r : Regs Config.xs256) (turns : List Turn := []) (host : List (HostOp 64) := []) : State :=
  ⟨Config.xs256, by decide, r, host, turns, [], 0⟩

/-- Registers right after reset, P committed. -/
def loaded8 : Regs toy8 := { Regs.reset toy8 with P := 0x1B, PVALID := true }
/-- The n = 16 modulus P = 0x100B of spec/95_test_vectors.md. -/
def loaded16 : Regs toy16 := { Regs.reset toy16 with P := 0x100B, PVALID := true }
/-- PRECOMP has run too. -/
def ready8 : Regs toy8 := { loaded8 with PM := #v[0x1B, 0x36, 0x6C, 0xD8, 0xAB, 0x4D, 0x9A, 0x2F], PMVALID := true }

/-- What `f` reads from the next state, nothing after a fault or a refusal. -/
def after (o : Host.Outcome State Fault Refusal) (f : State → List Nat) : List Nat :=
  match o with
  | .next t => f t
  | _       => []

def status (s : State) : Nat := s.regs.status.toNat

/-! ### Which configurations exist: one ill-formed configuration for each check -/

theorem test_wf_accepts_the_source_configurations :
    Config.xs256.wf ∧ toy8.wf ∧ toy16.wf ∧ xr128.wf ∧ xs512.wf ∧ toyAffine.wf ∧ toyGray.wf := by decide
theorem test_wf_refuses_width : ¬ (Config.mk 24 4 48 (.xoshiro 7 5) []).wf := by decide
theorem test_wf_refuses_no_word : ¬ (Config.mk 8 0 64 (.generic ⟨[], []⟩) []).wf := by decide
theorem test_wf_refuses_too_many_words : ¬ (Config.mk 8 257 64 (.generic ⟨[], []⟩) []).wf := by decide
theorem test_wf_refuses_jbits_not_multiple : ¬ (Config.mk 64 4 96 (.xoshiro 17 45) []).wf := by decide
theorem test_wf_refuses_jbits_zero : ¬ (Config.mk 64 4 0 (.xoshiro 17 45) []).wf := by decide
theorem test_wf_refuses_jbits_too_wide : ¬ (Config.mk 8 1 2056 (.generic ⟨[], []⟩) []).wf := by decide
theorem test_wf_refuses_xoshiro_words : ¬ (Config.mk 64 5 64 (.xoshiro 17 45) []).wf := by decide
theorem test_wf_refuses_xoroshiro_one_word : ¬ (Config.mk 64 1 64 (.xoroshiro 24 16 37) []).wf := by decide
theorem test_wf_refuses_constant_zero : ¬ (Config.mk 64 4 64 (.xoshiro 0 45) []).wf := by decide
theorem test_wf_refuses_constant_width : ¬ (Config.mk 64 2 64 (.xoroshiro 24 16 64) []).wf := by decide

/-! ### Command words, written out bit by bit (R100, R101, R110; section 2.8) -/

theorem test_decode_nop : decode 0b00000000#8 = .ok .nop := by decide
theorem test_decode_ldp : decode 0b00000001#8 = .ok .ldp := by decide
theorem test_decode_selp : decode 0b00000010#8 = .ok .selp := by decide
theorem test_decode_precomp : decode 0b00000011#8 = .ok .precomp := by decide
theorem test_decode_mulx : decode 0b00000100#8 = .ok .mulx := by decide
theorem test_decode_sqr : decode 0b00000101#8 = .ok .sqr := by decide
theorem test_decode_reduce : decode 0b0000000000000110#16 = .ok .reduce := by decide
theorem test_decode_reduceP2 : decode 0b0000000000010110#16 = .ok .reduceP2 := by decide
theorem test_decode_riffle : decode 0x0000000000000007#64 = .ok .riffle := by decide
theorem test_decode_step : decode 0x0000000000000008#64 = .ok .step := by decide
theorem test_decode_apply : decode 0x0000000000000009#64 = .ok .apply := by decide
theorem test_decode_clrerr : decode 0x000000000000000A#64 = .ok .clrerr := by decide
theorem test_decode_rejects_reserved_op :
    decode 0x0B#8 = .error .reservedOp ∧ decode 0x0F#8 = .error .reservedOp ∧ decode 0x1B#8 = .error .reservedOp := by decide
theorem test_decode_rejects_pow2 : decode 0x14#8 = .error .pow2NotReduce ∧ decode 0x10#8 = .error .pow2NotReduce := by decide
theorem test_decode_rejects_reserved_bits :
    decode 0x26#8 = .error .reservedBit ∧ decode 0x80#8 = .error .reservedBit ∧ decode 0x0106#16 = .error .reservedBit ∧
    decode 0x8000000000000006#64 = .error .reservedBit := by decide

/-! ### Commands -/

/-- After the failed MULX of section 2.8, NOP gives STATUS 0x08. -/
theorem test_nop : after (exec .nop (at8 { Regs.reset toy8 with ERR := true, ECODE := 2 })) (fun t => [status t]) = [0x08] := by decide
theorem test_clrerr :
    after (exec .clrerr (at8 { Regs.reset toy8 with ERR := true, OVR := true, ECODE := 2 })) (fun t => [status t]) = [0] := by decide

theorem test_ldp : after (exec .ldp (at8 { Regs.reset toy8 with P := 0x1B })) (fun t => [status t, t.regs.P.toNat]) =
    [0x02, 0x1B] := by decide

theorem test_selp_hit : after (exec .selp (at8 { Regs.reset toy8 with KEY := 5 })) (fun t => [status t, t.regs.P.toNat]) =
    [0x02, 0x1B] := by decide
theorem test_selp_miss : after (exec .selp (at8 { ready8 with KEY := 6 })) (fun t => [status t, t.regs.P.toNat]) =
    [0x48, 0x1B] := by decide

/-- Section 2.2, TOY8. -/
theorem test_precomp : after (exec .precomp (at8 loaded8)) (fun t => status t :: t.regs.PM.toList.map BitVec.toNat) =
    [0x06, 0x1B, 0x36, 0x6C, 0xD8, 0xAB, 0x4D, 0x9A, 0x2F] := by decide +kernel
theorem test_precomp_without_coefficients : after (exec .precomp (at8 (Regs.reset toy8))) (fun t => [status t]) = [0x48] := by decide

theorem test_mulx_folds : after (exec .mulx (at8 { loaded8 with R := 0xAE })) (fun t => [status t, t.regs.R.toNat]) =
    [0x02, 0x47] := by decide +kernel
theorem test_mulx_carries_into_the_next_word :
    after (exec .mulx (at16 { loaded16 with R := 0x0080 })) (fun t => [t.regs.R.toNat]) = [0x0100] := by decide

theorem test_sqr : after (exec .sqr (at8 { loaded8 with R := 0x53 })) (fun t => [status t, t.regs.R.toNat]) =
    [0x06, 0xB5] := by decide +kernel
theorem test_sqr_two_words : after (exec .sqr (at16 { loaded16 with R := 0x1234 })) (fun t => [t.regs.R.toNat]) = [0x5E87] := by decide +kernel

theorem test_reduce : after (exec .reduce (at8 { loaded8 with J := 100 })) (fun t => [status t, t.regs.R.toNat]) =
    [0x06, 0xCB] := by decide +kernel
theorem test_reduce_boundaries : [0, 7, 8, 9].map (fun j =>
    after (exec .reduce (at8 { loaded8 with J := j })) (fun t => [t.regs.R.toNat])) = [[0x01], [0x80], [0x1B], [0x36]] := by decide +kernel

theorem test_reduceP2 : [0, 1, 4].map (fun j =>
    after (exec .reduceP2 (at8 { loaded8 with J := j })) (fun t => [t.regs.R.toNat])) = [[0x02], [0x04], [0x5E]] := by decide +kernel
theorem test_reduceP2_two_words :
    after (exec .reduceP2 (at16 { loaded16 with J := 5 })) (fun t => [status t, t.regs.R.toNat]) = [0x06, 0x1BFE] := by decide +kernel

theorem test_riffle : after (exec .riffle (at8 { Regs.reset toy8 with RIN := 0xA5 })) (fun t => [t.regs.RLO.toNat, t.regs.RHI.toNat]) =
    [0x11, 0x44] := by decide
theorem test_riffle_64 :
    after (exec .riffle (at256 { Regs.reset Config.xs256 with RIN := 0x123456789ABCDEF0 }))
      (fun t => [t.regs.RLO.toNat, t.regs.RHI.toNat]) = [0x4144455051545500, 0x0104051011141540] := by decide +kernel

/-- Section 2.6: XS256 from its third to its fourth state, word 0 first. -/
theorem test_step_xoshiro4 :
    after (exec .step (at256 { Regs.reset Config.xs256 with
        S := 0x200004000000#64 ++ 0#64 ++ 0x20001#64 ++ 0x200000000001#64 }))
      (fun t => (List.range 4).map fun k => (getWord 64 t.regs.S k).toNat) =
    [0x4020000, 0x200000020000, 0x200400020001, 0x4000200004000080] := by decide
/-- Section 2.6: XR128 from its second to its third state. -/
theorem test_step_xoroshiro :
    (List.range 2).map (fun k => (getWord 64 (stepT xr128 (0x2020002000000400#64 ++ 0x0021002100000001#64)) k).toNat) =
    [0x0100000105012501, 0x0000802400200020] := by decide +kernel
/-- By hand from R192: from `s1 = 1` alone, `s1`, `s4`, `s5` are 1 and `s6` is `1 <<< 11`. -/
theorem test_step_xoshiro8 : (List.range 8).map (fun k => (getWord 64 (stepT xs512 (1#512 <<< 64)) k).toNat) =
    [0, 1, 0, 0, 1, 1, 0x800, 0] := by decide +kernel
/-- By hand: the exception wins over the columns. -/
theorem test_step_generic : stepT toyAffine 0 = 7 ∧ stepT toyAffine 0x81 = 0xC1 ∧ stepT toy8 0x80 = 0x1B := by decide

theorem test_apply : after (exec .apply (at8 { Regs.reset toy8 with R := 0x4D, S := 0x53 }))
    (fun t => [status t, t.regs.S.toNat, t.regs.ACC.toNat, t.regs.R.toNat]) = [0, 0xAD, 0xAD, 0x4D] := by decide +kernel
theorem test_apply_two_words : after (exec .apply (at16 { Regs.reset toy16 with R := 0x05D1, S := 0x0001 }))
    (fun t => [t.regs.S.toNat]) = [0x1871] := by decide +kernel

/-! ### The bus, STATUS, the agents -/

/-- Section 2.2: a write to P clears PVALID and PMVALID. -/
theorem test_write_p : after (step (at8 ready8 [.host] [.wr 0x100 0x1B])) (fun t => [status t, t.regs.P.toNat]) = [0, 0x1B] := by decide
theorem test_write_word : after (step (at256 (Regs.reset Config.xs256) [.host] [.wr 0x303 9]))
    (fun t => (List.range 4).map fun k => (getWord 64 t.regs.S k).toNat) = [1, 0, 0, 9] := by decide
theorem test_write_past_the_end : step (at256 (Regs.reset Config.xs256) [.host] [.wr 0x304 9]) =
    .next (at256 (Regs.reset Config.xs256)) := rfl
theorem test_write_read_only :
    [0x001, 0x004, 0x005, 0x400].map (fun a => ((loaded8.busWrite a 0xFF : Regs toy8) == loaded8)) =
      [true, true, true, true] := by decide
theorem test_read_last_word_and_past_it :
    (at256 { Regs.reset Config.xs256 with J := 77 }).readValue 0x500 = 77 ∧ (at8 { Regs.reset toy8 with J := 77 }).readValue 0x508 = 0 ∧
    (at8 { Regs.reset toy8 with J := 77#64 <<< 56 }).readValue 0x507 = 77 := by decide
theorem test_read_cmd_is_zero : (at8 loaded8).readValue 0x000 = 0 ∧ (at8 loaded8).readValue 0x001 = 0x02 := by decide
/-- Section 2.8: an illegal word gives STATUS 0x28. -/
theorem test_illegal_word : after (step (at8 { Regs.reset toy8 with PEND := some 0x14 } [.core])) (fun t => [status t]) = [0x28] := by decide
/-- Program 5, the Core first: the write is taken. -/
theorem test_program5_core_first :
    after (core.run 2 (at8 { Regs.reset toy8 with P := 0x1B, PEND := some 0x01 } [.core, .host] [.wr 0x100 0x00]))
      (fun t => [status t, t.regs.P.toNat]) = [0x00, 0x00] := by decide
/-- Program 5, the Host first: the write is dropped. -/
theorem test_program5_host_first :
    after (core.run 2 (at8 { Regs.reset toy8 with P := 0x1B, PEND := some 0x01 } [.host, .core] [.wr 0x100 0x00]))
      (fun t => [status t, t.regs.P.toNat]) = [0x12, 0x1B] := by decide
theorem test_reset_input : after (step (at8 { ready8 with PEND := some 6, OVR := true, ACC := 9 } [.reset]))
    (fun t => [status t, t.regs.P.toNat, t.regs.R.toNat, t.regs.S.toNat, t.regs.ACC.toNat]) = [0, 0, 1, 1, 0] := by decide
/-- R109: `jump 13` on two words of J. -/
theorem test_assembler : asmJump { toy8 with JBITS := 16 } 0x010D =
    [.wr 0x500 0x0D, .wr 0x501 0x01, .wr 0x000 0x06, .wait, .wr 0x000 0x09, .wait] := by decide
theorem test_fetch_word : step (State.reset.withFetchWord 8 0x16) =
    .next (State.reset.withRegs { State.reset.regs with ECODE := 2, ERR := true }) ∧ decodeTableWord 8 0x16 = some .reduceP2 :=
  ⟨rfl, by decide⟩

/-! ### Witnesses: what meets the hypotheses of each obligation -/

/-- For the obligations whose hypotheses are a supported configuration and an index in range: ResetStateHasTheSpecValues,
CommandsRightAfterReset, DoubleRiffleSquares, SqrFoldsTheHighHalf, SqrIsSquareModC, ZeroPMeansModulusXToTheN, InvariantHoldsAtReset,
MulxShiftsAndFolds, PowmodEntriesArePowersOfX, StatusFields; the first and the last index. -/
theorem witness_supported_configuration :
    Config.xs256.wf = true ∧ 0 < Config.xs256.N ∧ 3 < Config.xs256.N ∧ 0 < Config.xs256.n ∧ 255 < Config.xs256.n ∧ 8 ≤ 63 := by decide
theorem witness_DecodeInvertsEncode : 8 ≤ 8 ∧ decode 0x16#8 = .ok .reduceP2 ∧ (0x16#8 = encode 8 .reduceP2) := by decide
theorem witness_LegalWordsAreTheTwelve : 8 ≤ 8 ∧ legal 0x16#8 = true ∧ legal 0x14#8 = false := by decide
theorem witness_StepPerformsTheDecodedCommand :
    decode 0x04#8 = .ok .mulx ∧ (at8 { loaded8 with PEND := some 4 } [.core]).regs.PEND = some 4 ∧
    (at8 { loaded8 with PEND := some 4 } [.core]).turns = [.core] ∧ (at8 { loaded8 with PEND := some 4 }).turns = [] := by decide
theorem witness_IllegalWordFails :
    (at8 { loaded8 with PEND := some 0x80 } [.core, .host]).regs.PEND = some 0x80 ∧ legal 0x80#8 = false ∧
    (at8 { loaded8 with PEND := some 0x80 } [.core, .host]).turns = [.core, .host] := by decide
theorem witness_IdleCoreTurnChangesNothing :
    (at8 loaded8 [.core]).regs.PEND = none ∧ (at8 loaded8 [.core]).turns = [.core] := by decide
theorem witness_ConfigurationNeverChanges : step (at8 loaded8 [.reset]) = .next (at8 (Regs.reset toy8)) := rfl
theorem witness_IdleAccessesFollowTheRegisterMap : (at8 ready8).regs.PEND = none := by decide
/-- One word of each clause, and the first address past each block, of an idle TOY16 machine (R72). -/
theorem witness_IdleAccessesFollowTheRegisterMap_clauses :
    let s := at16 { loaded16 with KEY := 1, RIN := 2, RLO := 4, RHI := 1, R := 0x0304, S := 0x0506, ACC := 0x0708, J := 9 }
    [0x001, 0x002, 0x003, 0x004, 0x005, 0x101, 0x201, 0x301, 0x401, 0x500].map s.readValue = [2, 1, 2, 4, 1, 0x10, 3, 5, 7, 9] ∧
    [0x000, 0x006, 0x0FF, 0x102, 0x202, 0x302, 0x402, 0x508, 0x600, 0xFFF].map s.readValue = [0, 0, 0, 0, 0, 0, 0, 0, 0, 0] := by
  decide
theorem witness_WordsAreLittleEndian : (7 < 8) ∧ (1 + 1) * 8 ≤ 16 ∧ 0 ≠ 1 := by decide
theorem witness_HostWriteIsOneStep :
    (at8 loaded8 [.host] [.wr 0x500 3]).turns = [.host] ∧ (at8 loaded8 [.host] [.wr 0x500 3]).host = [.wr 0x500 3] := by decide
theorem witness_HostReadHasNoSideEffect :
    (at8 loaded8 [.host] [.rd 0x100]).turns = [.host] ∧ (at8 loaded8 [.host] [.rd 0x100]).host = [.rd 0x100] := by decide
theorem witness_WritesWhileBusyAreDropped :
    (at8 { loaded8 with PEND := some 0 } [.host] [.wr 0 1]).regs.PEND ≠ none ∧
    (at8 { loaded8 with PEND := some 0 } [.host] [.wr 0 1]).turns = [.host] ∧
    (at8 { loaded8 with PEND := some 0 } [.host] [.wr 0 1]).host = [.wr 0 1] := by decide
/-- STATUS; the first and last address of each block of data; CMD, the addresses between the blocks. -/
theorem witness_ReadsWhileBusyDraw :
    let s := at16 { loaded16 with PEND := some 0 }
    s.regs.PEND ≠ none ∧ s.readValue 0x001 = 0x03 ∧
    [0x002, 0x005, 0x100, 0x101, 0x200, 0x201, 0x300, 0x301, 0x400, 0x401, 0x500, 0x507].map s.readDraws = List.replicate 12 true ∧
    [0x000, 0x006, 0x0FF, 0x102, 0x1FF, 0x202, 0x302, 0x402, 0x508, 0xFFF].map s.readValue = List.replicate 10 0 := by decide
theorem witness_WaitPollsBusy :
    (at8 loaded8 [.host] [.wait]).regs.PEND = none ∧ (at8 { loaded8 with PEND := some 7 } [.host] [.wait]).regs.PEND ≠ none ∧
    (at8 loaded8 [.host] [.wait]).turns = [.host] ∧ (at8 loaded8 [.host] [.wait]).host = [.wait] := by decide
theorem witness_PendingCommandCapturesItsOperands :
    let ws : List (Addr × Word 8) := [(0x200, 9), (0x000, 1)]
    let s := at8 { loaded8 with PEND := some 4 } [.host, .host, .core] [.wr 0x200 9, .wr 0x000 1]
    s.regs.PEND = some 4 ∧ decode 0x04#8 = .ok .mulx ∧ s.host = ws.map (fun w => .wr w.1 w.2) ++ [] ∧
    s.turns = List.replicate ws.length .host ++ [.core] := by decide
theorem witness_SeedCopiesWordsVerbatim :
    let s : State := ⟨toy16, by decide, loaded16, [.wr 0x300 1, .wr 0x301 2], [.host, .host], [], 0⟩
    s.regs.PEND = none ∧ s.host = asmSeed toy16 0x0201 ++ [] ∧ s.turns = List.replicate toy16.N .host ++ [] := by decide
theorem witness_ResetSetsEveryRegister : (at8 { ready8 with PEND := some 1 } [.reset]).turns = [.reset] := by decide
theorem witness_SelpLoadsOrFails :
    (at8 { loaded8 with KEY := 5 }).cfg.coefRom.lookup 5 = some 0x1B ∧ (at8 { loaded8 with KEY := 6 }).cfg.coefRom.lookup 6 = none := by decide
/-- Also for MulxMultipliesR, SqrSquaresR, ReduceRunsSquareAndMultiply, ReduceP2SquaresJTimes: no coefficients; coefficients with the
table built and not. -/
theorem witness_PrecompBuildsTheTable :
    (at8 (Regs.reset toy8)).regs.PVALID = false ∧ (at8 loaded8).regs.PVALID = true ∧ (at8 loaded8).regs.PMVALID = false ∧
    (at8 ready8).regs.PVALID = true ∧ (at8 ready8).regs.PMVALID = true := by decide
theorem witness_NocoefExactlyWhenCoefficientsAreMissing :
    (at8 (Regs.reset toy8)).regs.PVALID = false ∧ (at8 loaded8).regs.PVALID = true ∧
    (at8 loaded8).cfg.coefRom.lookup loaded8.KEY = none ∧ (at8 loaded8).cfg.coefRom.lookup { loaded8 with KEY := 5 }.KEY ≠ none := by
  decide
theorem witness_ReduceComputesThePower :
    (at8 ready8).regs.PVALID = true ∧ ((at8 ready8).regs.PMVALID = true → (at8 ready8).regs.PM = powmod (at8 ready8).regs.P) := by decide
theorem witness_DirectCasesAgreeWithTheLoop : toy8.wf = true ∧ (1 ≤ 1 ∧ 1 ≤ toy8.n) ∧ (1 ≤ 8 ∧ 8 ≤ toy8.n) := by decide
theorem witness_XoshiroFourWordStep : Config.xs256.wf = true ∧ Config.xs256.stepFn = .xoshiro 17 45 ∧ Config.xs256.N = 4 := by decide
theorem witness_XoshiroEightWordStep : xs512.wf = true ∧ xs512.stepFn = .xoshiro 11 21 ∧ xs512.N = 8 := by decide
/-- N = 2 (no word moves down) and N = 3 (word 1 does). -/
theorem witness_XoroshiroStep :
    (toy16.wf = true ∧ toy16.stepFn = .xoroshiro 2 2 3) ∧
    ({ toy16 with N := 3, stepFn := .xoroshiro 2 2 3, coefRom := [] } : Config).wf = true ∧ 0 + 3 ≤ 3 := by decide
theorem witness_GenericStepFollowsItsData :
    toyAffine.stepFn = .generic ⟨[0x01, 0x03, 0x06, 0x0C, 0x18, 0x30, 0x60, 0xC0], [(0, 7)]⟩ ∧
    [((0 : Bits 8), (7 : Bits 8))].lookup 0 = some 7 ∧ [((0 : Bits 8), (7 : Bits 8))].lookup 0x81 = none := by decide
theorem witness_FixedStepFunctionsAreLinear : Config.xs256.wf = true ∧ ∀ g, Config.xs256.stepFn ≠ .generic g :=
  ⟨by decide, fun _ h => by cases h⟩
theorem toyGray_linear : IsLinear (stepT toyGray) := Laws.GenericMap.linear_of_no_exception _
theorem toy8_linear : IsLinear (stepT toy8) := Laws.GenericMap.linear_of_no_exception _
theorem witness_ZeroStateIsAbsorbing :
    IsLinear (stepT (at8 { loaded8 with S := 0 }).cfg) ∧ (at8 { loaded8 with S := 0 }).regs.S = 0 := ⟨toy8_linear, by decide⟩

theorem toyGray_upperTriangular : 
    ∀ i j : Fin toyGray.n, (if j.val < i.val then transitionMatrix (stepT toyGray) i j else 0) = 0 := by decide +kernel
theorem toyGray_diagonal : ∀ i : Fin toyGray.n, transitionMatrix (stepT toyGray) i i = 1 := by decide +kernel

/-- `v ↦ v ^ (v >> 1)` has the characteristic polynomial `x^8 + 1`. -/
theorem witness_CharacteristicPolynomialAnnihilates : IsCharPoly (stepT toyGray) (1 : Bits toyGray.n) := by
  refine ⟨toyGray_linear, ?_⟩
  have h := Matrix.charpoly_of_isUpperTriangular (M := transitionMatrix (stepT toyGray)) 
    (fun i j h => by simpa [show j.val < i.val from h] using toyGray_upperTriangular i j)
  rw [h]
  simp only [toyGray_diagonal]
  have one : toPoly (1 : Bits toyGray.n) = 1 := by
    ext i
    rw [coeff_toPoly, Polynomial.coeff_one]
    rcases i with _ | i
    · rfl
    · simp [BitVec.getLsbD_one]
  have e : (Polynomial.X - Polynomial.C 1 : Polynomial (ZMod 2)) ^ 2 ^ 3 = Polynomial.X ^ 2 ^ 3 - 1 := by
    rw [sub_pow_expChar_pow, ← Polynomial.C_pow, one_pow, Polynomial.C_1]
  rw [Finset.prod_const, Finset.card_univ, Fintype.card_fin, modulus, one]
  refine e.trans ?_
  rw [sub_eq_add_neg, CharTwo.neg_eq]; rfl

/-- `x^j`, for `j` below the degree, is its own remainder. -/
theorem power_below_degree {n : Nat} (p v : Bits n) (j : Nat) (h : ∀ i, v.getLsbD i = decide (i = j)) :
    toPoly v = Polynomial.X ^ j %ₘ modulus p := by
  have e : toPoly v = Polynomial.X ^ j := by
    ext i; rw [coeff_toPoly, Polynomial.coeff_X_pow, h]; simp
  rw [← e, toPoly_modByMonic]

theorem bit_of_power {j : Nat} (v : Bits 8) (h : ∀ i < 8, v.getLsbD i = decide (i = j)) (hj : j < 8) (i : Nat) :
    v.getLsbD i = decide (i = j) := by
  by_cases hi : i < 8
  · exact h i hi
  · rw [BitVec.getLsbD_of_ge _ _ (by omega)]; simp; omega

/-- Steps of the Galois LFSR of TOY8, whose P is 0x1B, with `x^3`. -/
theorem witness_JumpEqualsSteps :
    IsLinear (stepT toy8) ∧ Annihilates (stepT toy8) 0x1B ∧
    toPoly (0x08 : Bits 8) = Polynomial.X ^ 3 %ₘ modulus (0x1B : Bits 8) :=
  ⟨toy8_linear, by unfold Annihilates; decide +kernel, power_below_degree _ _ _ (bit_of_power _ (by decide) (by decide))⟩

/-- A machine whose committed P is the characteristic polynomial of its step unit; jumps of 1, 2 and 3 steps from S = 3. -/
def grayMachine : State := ⟨toyGray, by decide, { Regs.reset toyGray with P := 1, PVALID := true, J := 9 }, [], [], [], 0⟩

theorem witness_JumpLaws :
    grayMachine.regs.PVALID = true ∧ (grayMachine.regs.PMVALID = true → grayMachine.regs.PM = powmod grayMachine.regs.P) ∧
    IsCharPoly (stepT grayMachine.cfg) grayMachine.regs.P ∧
    toPoly (2 : Bits 8) = Polynomial.X ^ 1 %ₘ modulus (1 : Bits 8) ∧ toPoly (4 : Bits 8) = Polynomial.X ^ 2 %ₘ modulus (1 : Bits 8) ∧
    toPoly (8 : Bits 8) = Polynomial.X ^ (1 + 2) %ₘ modulus (1 : Bits 8) ∧
    grayMachine.AppliesTo 2 3 2 ∧ grayMachine.AppliesTo 4 2 2 := by
  refine ⟨rfl, by decide, witness_CharacteristicPolynomialAnnihilates, ?_, ?_, ?_, ⟨_, rfl, by decide +kernel⟩,
    ⟨_, rfl, by decide +kernel⟩⟩
  all_goals exact power_below_degree _ _ _ (bit_of_power _ (by decide) (by decide))

theorem witness_CommandsWriteOnlyTheirTargets :
    Instr.mulx ≠ .selp ∧ Instr.mulx ∉ [Instr.step, .apply] ∧ Instr.mulx ≠ .clrerr ∧ (at8 { loaded8 with ERR := true }).regs.ERR = true := by
  decide
/-- Registers that agree on R, S and RIN with another machine's, and not on P; and a machine without its table beside one with it. -/
theorem witness_ResultsDependOnlyOnTheOperands :
    let r : Regs toy8 := { loaded8 with P := 9, PVALID := false, J := 3, KEY := 1 }
    (r.R = (at8 loaded8).regs.R ∧ r.S = (at8 loaded8).regs.S ∧ r.RIN = (at8 loaded8).regs.RIN ∧ r ≠ loaded8) ∧
    (ready8.P = (at8 loaded8).regs.P ∧ ready8.PVALID = true ∧ (at8 loaded8).regs.PVALID = true ∧
      (ready8.PMVALID = true → ready8.PM = powmod ready8.P) ∧ ((at8 loaded8).regs.PMVALID = true → loaded8.PM = powmod loaded8.P) ∧
      ready8.R = (at8 loaded8).regs.R ∧ ready8.J = (at8 loaded8).regs.J ∧ ready8 ≠ loaded8) :=
  ⟨⟨rfl, rfl, rfl, by decide⟩, rfl, rfl, rfl, by decide, by decide, rfl, rfl, by decide⟩
theorem witness_StickyFlagsStay :
    let failed : Regs toy8 := { loaded8 with ERR := true, OVR := true }
    (∃ t, step (at8 failed [.reset]) = .next t ∧ failed.ERR = true ∧ t.regs.ERR = false) ∧
    (∃ t, step (at8 { failed with PEND := some 0x0A } [.core]) = .next t ∧ failed.OVR = true ∧ t.regs.OVR = false) :=
  ⟨⟨_, rfl, rfl, rfl⟩, ⟨_, rfl, rfl, rfl⟩⟩
/-- PVALID falls by each of its three sources and rises by each of its two. -/
theorem witness_PvalidChangesOnlyByItsSources :
    (∃ t, step (at8 loaded8 [.reset]) = .next t ∧ loaded8.PVALID = true ∧ t.regs.PVALID = false) ∧
    (∃ t, step (at8 { loaded8 with PEND := some 2 } [.core]) = .next t ∧ loaded8.PVALID = true ∧ t.regs.PVALID = false) ∧
    (∃ t, step (at8 loaded8 [.host] [.wr 0x100 1]) = .next t ∧ loaded8.PVALID = true ∧ t.regs.PVALID = false) ∧
    (∃ t, step (at8 { Regs.reset toy8 with PEND := some 1 } [.core]) = .next t ∧ t.regs.PVALID = true) ∧
    (∃ t, step (at8 { Regs.reset toy8 with PEND := some 2, KEY := 5 } [.core]) = .next t ∧ t.regs.PVALID = true) :=
  ⟨⟨_, rfl, rfl, rfl⟩, ⟨_, rfl, rfl, rfl⟩, ⟨_, rfl, rfl, rfl⟩, ⟨_, rfl, rfl⟩, ⟨_, rfl, rfl⟩⟩
theorem witness_AccChangesOnlyByApply :
    (∃ t, step (at8 { loaded8 with PEND := some 9 } [.core]) = .next t ∧ t.regs.ACC.toNat ≠ loaded8.ACC.toNat) ∧
    (∃ t, step (at8 { loaded8 with ACC := 1 } [.reset]) = .next t ∧ t.regs.ACC.toNat ≠ 1) :=
  ⟨⟨_, rfl, by decide +kernel⟩, ⟨_, rfl, by decide⟩⟩
theorem witness_PendingCommandStaysPending :
    let s := at8 { loaded8 with PEND := some 4 } [.host] [.wr 0 1]
    s.regs.PEND = some 4 ∧ s.turns = [.host] ∧ ∃ t, step s = .next t := ⟨rfl, rfl, _, rfl⟩
/-- From a state with the table built, a write to P and then the Core's turn with SQR pending. -/
theorem witness_InvariantIsKept :
    ready8.Inv ∧ (∃ t, step (at8 ready8 [.host] [.wr 0x100 1]) = .next t) ∧
    (∃ t, step (at8 { ready8 with PEND := some 5 } [.core]) = .next t) := by
  refine ⟨by decide +kernel, ⟨_, rfl⟩, ⟨_, rfl⟩⟩

end Sys2Proof.Tests
end

section
/-! SUPPORT. The configuration along a step (spec/00_scope.md R14). -/

namespace Sys2Proof.Machine

/-- Settles O8: the next state is `s` with other fields than `cfg` updated, in each case of a step. -/
theorem configurationNeverChanges : Obligations.ConfigurationNeverChanges := by
  intro s t h
  obtain ⟨_, _, rfl⟩ | ⟨_, _, _, rfl, _⟩ | ⟨_, _, ⟨_, _, _, rfl⟩ | ⟨_, _, _, _, rfl⟩⟩ := step_cases s t h
  · rfl -- the reset input
  · rfl -- the Core's turn
  · rfl -- the Host's turn, registers untouched
  · rfl -- the Host's turn, a bus write

end Sys2Proof.Machine
end

section
/-! SUPPORT. Generator states as vectors over GF(2) and linear transitions as matrices (spec/00_scope.md R16, R25, R26): a step is a
product with the transition matrix, `apply(r, s)` is the product with `r` evaluated at it. -/

namespace Sys2Proof
open Machine Polynomial

/-- A value as a vector over GF(2): entry `i` is bit `i`. -/
def stateVec {n : Nat} (v : Bits n) : Fin n → ZMod 2 := fun i => if v.getLsbD i then 1 else 0

theorem stateVec_injective {n : Nat} : Function.Injective (stateVec (n := n)) := by
  intro v w h
  apply BitVec.eq_of_getLsbD_eq
  intro i hi
  have hbit := congrFun h ⟨i, hi⟩
  simp only [stateVec] at hbit
  cases h1 : v.getLsbD i <;> cases h2 : w.getLsbD i <;> simp_all

theorem stateVec_surjective {n : Nat} : Function.Surjective (stateVec (n := n)) := by
  intro f
  refine ⟨packBits (fun i => decide (∃ h : i < n, f ⟨i, h⟩ = 1)) n, funext fun i => ?_⟩
  have hbit : ∀ a : ZMod 2, (if a = 1 then 1 else 0) = a := by decide
  rw [stateVec, packBits_getLsbD]
  simpa using hbit (f i)

@[simp] theorem stateVec_zero {n : Nat} : stateVec (0 : Bits n) = 0 := by
  funext i; simp [stateVec]

@[simp] theorem stateVec_xor {n : Nat} (v w : Bits n) : stateVec (v ^^^ w) = stateVec v + stateVec w := by
  funext i
  simp only [stateVec, Pi.add_apply, BitVec.getLsbD_xor]
  cases v.getLsbD i <;> cases w.getLsbD i <;> decide

theorem getLsbD_bit {n : Nat} (j i : Nat) : ((1 : Bits n) <<< j).getLsbD i = (decide (j < n) && decide (j = i)) :=
  BitVec.getLsbD_twoPow j i

theorem stateVec_bit {n : Nat} (j : Fin n) : stateVec ((1 : Bits n) <<< j.val) = Pi.single j 1 := by
  funext i
  rw [stateVec, getLsbD_bit, Pi.single_apply]
  simp [Fin.ext_iff, eq_comm]

/-- What holds of zero and of the single bits and is kept by XOR holds of every value. -/
theorem xor_induction {n : Nat} {motive : Bits n → Prop} (zero : motive 0) (bit : ∀ j : Fin n, motive ((1 : Bits n) <<< j.val))
    (xor : ∀ v w, motive v → motive w → motive (v ^^^ w)) (v : Bits n) : motive v := by
  have below : ∀ k ≤ n, ∀ v : Bits n, (∀ i, k ≤ i → v.getLsbD i = false) → motive v := by
    intro k hk
    induction k with
    | zero =>
      intro v hv
      rwa [show v = 0 from BitVec.eq_of_getLsbD_eq fun i _ => by simp [hv]]
    | succ k ih =>
      intro v hv
      cases hbit : v.getLsbD k with
      | false =>
        refine ih (by omega) v fun i hi => ?_
        rcases Nat.eq_or_lt_of_le hi with rfl | h
        · exact hbit
        · exact hv i h
      | true =>
        have low : motive (v ^^^ (1 : Bits n) <<< k) := by
          refine ih (by omega) _ fun i hi => ?_
          rw [BitVec.getLsbD_xor, getLsbD_bit]
          rcases Nat.eq_or_lt_of_le hi with rfl | h
          · simp [hbit]; omega
          · simp [hv i h]; omega
        simpa [BitVec.xor_assoc] using xor _ _ low (bit ⟨k, by omega⟩)
  exact below n le_rfl v fun i hi => BitVec.getLsbD_of_ge _ _ hi

section linear
variable {n : Nat} {T : Bits n → Bits n}

/-- R25: a step of a linear transition is the product with its matrix. -/
theorem IsLinear.stateVec_step (h : IsLinear T) (v : Bits n) :
    stateVec (T v) = (transitionMatrix T).mulVec (stateVec v) := by
  induction v using xor_induction with
  | zero => rw [h.map_zero, stateVec_zero, Matrix.mulVec_zero]
  | bit j =>
    rw [stateVec_bit, Matrix.mulVec_single_one]
    rfl
  | xor v w hv hw => rw [h, stateVec_xor, stateVec_xor, Matrix.mulVec_add, hv, hw]

theorem IsLinear.stateVec_iterate (h : IsLinear T) (k : Nat) (v : Bits n) :
    stateVec (T^[k] v) = (transitionMatrix T ^ k).mulVec (stateVec v) := by
  induction k with
  | zero => rw [pow_zero, Matrix.one_mulVec]; rfl
  | succ k ih => rw [Function.iterate_succ_apply', h.stateVec_step, ih, Matrix.mulVec_mulVec, pow_succ']

/-- A XOR of selected values is the sum of their vectors. -/
theorem stateVec_foldl_xor (b : Nat → Bool) (f : Nat → Bits n) (k : Nat) :
    stateVec ((List.range k).foldl (fun acc i => if b i then acc ^^^ f i else acc) 0) =
      ∑ i ∈ Finset.range k, if b i then stateVec (f i) else 0 := by
  induction k with
  | zero => exact stateVec_zero
  | succ k ih =>
    rw [List.range_succ, List.foldl_append, Finset.sum_range_succ, ← ih]
    cases h : b k <;> simp [h]

/-- R26, R198: `apply(r, s)` is `r(T)·s`, with `T` the transition matrix. -/
theorem IsLinear.stateVec_applyPoly (h : IsLinear T) (r s : Bits n) :
    stateVec (applyPoly T r s) = (aeval (transitionMatrix T) (toPoly r)).mulVec (stateVec s) := by
  rw [applyPoly_eq_foldl, stateVec_foldl_xor, toPoly, map_sum, Matrix.sum_mulVec]
  refine Finset.sum_congr rfl fun i _ => ?_
  split
  · rw [h.stateVec_iterate, map_pow, aeval_X]
  · rw [aeval_zero, Matrix.zero_mulVec]

/-- R26: `c(T) = 0` on states says that `c` vanishes at the transition matrix. -/
theorem IsLinear.annihilates_iff (h : IsLinear T) (p : Bits n) :
    Annihilates T p ↔ aeval (transitionMatrix T) (modulus p) = 0 := by
  have split_modulus : aeval (transitionMatrix T) (modulus p) =
      transitionMatrix T ^ n - aeval (transitionMatrix T) (toPoly p) := by
    rw [modulus, ← CharTwo.sub_eq_add, map_sub, map_pow, aeval_X]
  rw [split_modulus, sub_eq_zero, Matrix.ext_iff_mulVec, stateVec_surjective.forall]
  simp only [← h.stateVec_iterate, ← h.stateVec_applyPoly, stateVec_injective.eq_iff]
  exact Iff.rfl

end linear

/-- Settles O50: the transition matrix is a root of its characteristic polynomial (Cayley–Hamilton). -/
theorem characteristicPolynomialAnnihilates : Obligations.CharacteristicPolynomialAnnihilates := by
  rintro n T p ⟨hlin, hchar⟩
  rw [hlin.annihilates_iff, ← hchar]
  exact Matrix.aeval_self_charpoly _

/-- Settles O51: at a root of `c`, `x^J` and its remainder modulo `c` have one value. -/
theorem jumpEqualsSteps : Obligations.JumpEqualsSteps := by
  intro n T p r s J hlin hann hr
  have root : aeval (transitionMatrix T) (modulus p) = 0 := (hlin.annihilates_iff p).1 hann
  apply stateVec_injective
  rw [hlin.stateVec_applyPoly, hlin.stateVec_iterate, hr, aeval_modByMonic_eq_self_of_root root, map_pow, aeval_X]

end Sys2Proof
end

section
/-! SUPPORT. The polynomial unit modulo `c(x)` (spec/40_riffle.md R132; spec/42_polynomial.md R160 to R163; spec/41_coefficients.md
R144): `mulx` multiplies by x, the table of P holds the powers from `x^n` on, the double-length riffle squares, and folding its high
half with that table reduces. -/

namespace Sys2Proof
open Machine Polynomial

/-! ### Multiplication by x and the power_mod table -/

/-- Multiplying by x shifts the coefficients up one place, the top one to `x^n`. -/
theorem X_mul_toPoly {n : Nat} (v : Bits n) :
    X * toPoly v = toPoly (v <<< 1) + if v.getLsbD (n - 1) then X ^ n else 0 := by
  have top (i : Nat) : (if v.getLsbD (n - 1) then (X : (ZMod 2)[X]) ^ n else 0).coeff i =
      if i = n ∧ v.getLsbD (n - 1) then 1 else 0 := by
    cases v.getLsbD (n - 1) <;> simp [coeff_X_pow]
  ext i
  rw [coeff_add, top, coeff_toPoly, BitVec.getLsbD_shiftLeft]
  cases i with
  | zero =>
    have no_bit : ¬ (0 = n ∧ v.getLsbD (n - 1) = true) := by
      rintro ⟨rfl, h⟩
      simp at h
    simp [no_bit]
  | succ i =>
    rw [coeff_X_mul, coeff_toPoly, Nat.add_sub_cancel]
    rcases Nat.lt_trichotomy (i + 1) n with h | rfl | h
    · simp [h, h.ne]
    · simp
    · simp [BitVec.getLsbD_of_ge v i (by omega), h.ne', Nat.not_lt.2 h.le]

/-- P itself is `x^n mod c(x)`. -/
theorem toPoly_eq_X_pow_modByMonic {n : Nat} (p : Bits n) : toPoly p = X ^ n %ₘ modulus p := by
  rw [← toPoly_modByMonic p p]
  refine modByMonic_eq_of_dvd_sub (monic_modulus p) ?_
  rw [CharTwo.sub_eq_add, add_comm, modulus]

/-- R162: `mulx` multiplies by x modulo `c(x)`. -/
theorem toPoly_mulx {n : Nat} (p v : Bits n) : toPoly (mulx p v) = (X * toPoly v) %ₘ modulus p := by
  rw [X_mul_toPoly, add_modByMonic, toPoly_modByMonic, mulx]
  split
  · rw [toPoly_xor, ← toPoly_eq_X_pow_modByMonic]
  · rw [zero_modByMonic, add_zero]

/-- R144: multiplying P by x `i` times gives `x^(n+i) mod c(x)`. -/
theorem toPoly_iterate_mulx {n : Nat} (p : Bits n) (i : Nat) : toPoly ((mulx p)^[i] p) = X ^ (n + i) %ₘ modulus p := by
  induction i with
  | zero => exact toPoly_eq_X_pow_modByMonic p
  | succ i ih =>
    rw [Function.iterate_succ_apply', toPoly_mulx, ih, ← Nat.add_assoc, pow_succ']
    refine modByMonic_eq_of_dvd_sub (monic_modulus p) ?_
    rw [← mul_sub]
    exact (dvd_modByMonic_sub _ _).mul_left X

/-- R34, R144: entry `i` of the table of P is `x^(n+i) mod c(x)`. -/
theorem toPoly_powmod {n : Nat} (p : Bits n) (i : Nat) (h : i < n) :
    toPoly (powmod p)[i] = X ^ (n + i) %ₘ modulus p := by
  rw [powmod_getElem, toPoly_iterate_mulx]

/-! ### The double-length riffle -/

/-- R132: word `q` of the double-length riffle of `v`, for words of an even number of bits, holds at its even positions the bits of
`v` from `qW/2` on and zeros at its odd ones. -/
theorem riffled_word_getLsbD {m W : Nat} (heven : W % 2 = 0) (v : Bits m) (q j : Nat) (hj : j < W) :
    (if q % 2 = 0 then riffleLo (getWord W v (q / 2)) else riffleHi (getWord W v (q / 2))).getLsbD j =
      (j % 2 == 0 && v.getLsbD ((q * W + j) / 2)) := by
  have hq : q * W = 2 * (q / 2 * W) + q % 2 * W := by
    rw [← Nat.mul_assoc, ← Nat.add_mul, Nat.div_add_mod]
  split
  · rename_i h
    rw [h] at hq
    rw [riffleLo, spread_getLsbD, getWord_getLsbD, show q / 2 * W + (0 + j / 2) = (q * W + j) / 2 by omega]
    simp [hj, show j / 2 < W by omega]
  · rename_i h
    rw [show q % 2 = 1 by omega] at hq
    rw [riffleHi, spread_getLsbD, getWord_getLsbD, show q / 2 * W + (W / 2 + j / 2) = (q * W + j) / 2 by omega]
    simp [hj, show W / 2 + j / 2 < W by omega]

/-- R132: the double-length riffle holds the bits of `v` at its even positions and zeros at its odd ones. -/
theorem dbl_getLsbD {W N : Nat} (hW : 0 < W) (heven : W % 2 = 0) (v : Bits (N * W)) (i : Nat) :
    (dbl W N v).getLsbD i = (i % 2 == 0 && v.getLsbD (i / 2)) := by
  have parity : i % W % 2 = i % 2 := Nat.mod_mod_of_dvd i (Nat.dvd_of_mod_eq_zero heven)
  rw [dbl, packWords_getLsbD _ _ _ _ hW, riffled_word_getLsbD heven v _ _ (Nat.mod_lt i hW), Nat.div_add_mod', parity,
    Nat.mul_assoc]
  by_cases h : i < 2 * (N * W)
  · simp [h]
  · simp [h, BitVec.getLsbD_of_ge v (i / 2) (by omega)]

/-- R132: over GF(2) the double-length riffle is the square. -/
theorem toPoly_dbl {W N : Nat} (hW : 0 < W) (heven : W % 2 = 0) (v : Bits (N * W)) :
    toPoly (dbl W N v) = toPoly v ^ 2 := by
  rw [← ZMod.expand_card]
  ext i
  rw [coeff_expand Nat.two_pos, coeff_toPoly, coeff_toPoly, dbl_getLsbD hW heven]
  by_cases h : i % 2 = 0 <;> simp [h, Nat.dvd_iff_mod_eq_zero]

/-! ### The fold of the high half -/

/-- R163: the fold adds the table entries that the bits of `h` from `i` on select. -/
theorem toPoly_foldHigh {n : Nat} (h : Bits n) (i : Nat) (table : List (Bits n)) (acc : Bits n) :
    toPoly (foldHigh h i table acc) =
      toPoly acc + ∑ j ∈ Finset.range table.length, if h.getLsbD (i + j) then toPoly (table.getD j 0) else 0 := by
  induction table generalizing i acc with
  | nil => simp [foldHigh]
  | cons m ms ih =>
    have selected : toPoly (if h.getLsbD i then acc ^^^ m else acc) = toPoly acc + if h.getLsbD i then toPoly m else 0 := by
      split
      · exact toPoly_xor acc m
      · exact (add_zero _).symm
    rw [foldHigh, ih, selected, List.length_cons, Finset.sum_range_succ']
    simp only [List.getD_cons_succ, List.getD_cons_zero, Nat.add_zero, Nat.add_right_comm i, ← Nat.add_assoc]
    ring

/-- A double-length value is its low half and `x^n` times its high half. -/
theorem toPoly_halves {n : Nat} (d : Bits (2 * n)) :
    toPoly d = toPoly (d.extractLsb' 0 n) + X ^ n * toPoly (d.extractLsb' n n) := by
  ext i
  rw [coeff_add, coeff_X_pow_mul', coeff_toPoly, coeff_toPoly, coeff_toPoly, BitVec.getLsbD_extractLsb',
    BitVec.getLsbD_extractLsb']
  rcases Nat.lt_or_ge i n with h | h
  · simp [h, Nat.not_le.2 h]
  · by_cases hi : i - n < n
    · simp [h, hi, Nat.not_lt.2 h]
    · simp [h, hi, Nat.not_lt.2 h, BitVec.getLsbD_of_ge d i (by omega)]

/-- R163: with the table of P, folding `h` adds `x^n·h(x) mod c(x)`. -/
theorem toPoly_foldHigh_powmod {n : Nat} (p h acc : Bits n) :
    toPoly (foldHigh h 0 (powmod p).toList acc) = toPoly acc + (X ^ n * toPoly h) %ₘ modulus p := by
  change _ = _ + modByMonicHom (modulus p) (X ^ n * toPoly h)
  rw [toPoly_foldHigh, toPoly.eq_1 h, Finset.mul_sum, map_sum, Vector.length_toList]
  refine congrArg _ (Finset.sum_congr rfl fun j hj => ?_)
  have hj' : j < n := Finset.mem_range.1 hj
  rw [Nat.zero_add]
  split
  · have entry : (powmod p).toList.getD j 0 = (powmod p)[j] := by simp [hj']
    rw [entry, toPoly_powmod, ← pow_add]
    rfl
  · rw [mul_zero, map_zero]

/-- Settles O35: the double-length riffle squares and the fold reduces. -/
theorem sqrIsSquareModC : Obligations.SqrIsSquareModC := by
  intro c hc p v
  have hW := Config.eight_le_width hc
  have heven : c.W % 2 = 0 := by rcases Config.wf_width hc with h | h | h | h <;> omega
  rw [← toPoly_dbl (by omega) heven, toPoly_halves (dbl c.W c.N v), add_modByMonic, toPoly_modByMonic]
  exact toPoly_foldHigh_powmod p _ _

end Sys2Proof
end

section
/-! SUPPORT. The hidden power_mod table and the STATUS word (spec/10_state.md R34, R43). -/

namespace Sys2Proof.Machine

/-- Settles O33: entry `i` is P multiplied by x `i` times, and P is `x^n mod c(x)`. -/
theorem powmodEntriesArePowersOfX : Obligations.PowmodEntriesArePowersOfX := by
  intro n p i h
  exact toPoly_powmod p i h

/-- R43: the fields of STATUS from bit 0 up; at every supported width they fit the word. -/
theorem Regs.status_getLsbD {c : Config} (hc : c.wf = true) (r : Regs c) (i : Nat) :
    r.status.getLsbD i =
      match i with
      | 0 => r.busy
      | 1 => r.PVALID
      | 2 => r.PMVALID
      | 3 => r.ERR
      | 4 => r.OVR
      | i + 5 => r.ECODE.getLsbD i := by
  have hW := Config.eight_le_width hc
  rw [Regs.status, BitVec.getLsbD_setWidth]
  simp only [Regs.statusByte, BitVec.getLsbD_append, BitVec.getLsbD_ofBool]
  rcases i with _ | _ | _ | _ | _ | i
  · simp [show 0 < c.W by omega]
  · simp [show 0 + 1 < c.W by omega]
  · simp [show 0 + 1 + 1 < c.W by omega]
  · simp [show 0 + 1 + 1 + 1 < c.W by omega]
  · simp [show 0 + 1 + 1 + 1 + 1 < c.W by omega]
  · by_cases hi : i < 3
    · simp [show i + 5 < c.W by omega]
    · simp [BitVec.getLsbD_of_ge r.ECODE i (by omega)]

/-- Settles O18: bit by bit; ECODE is the three bits from bit 5 up, so nothing stands above bit 7. -/
theorem statusFields : Obligations.StatusFields := by
  intro s
  have bit := s.regs.status_getLsbD s.cfgOk
  refine ⟨bit 0, bit 1, bit 2, bit 3, bit 4, ?_, fun i hi => ?_⟩
  · apply BitVec.eq_of_getLsbD_eq
    intro i hi
    rw [BitVec.getLsbD_extractLsb', Nat.add_comm, bit]
    simp [hi]
  · obtain ⟨j, rfl⟩ := Nat.exists_eq_add_of_le' (show 5 ≤ i by omega)
    rw [bit]
    exact BitVec.getLsbD_of_ge _ _ (by omega)

end Sys2Proof.Machine
end

section
/-! SUPPORT. Runs of host writes, and `seed v` as one of them (spec/10_state.md R37; spec/20_memory.md R71, R76; spec/30_encoding.md
R109). -/

namespace Sys2Proof.Machine

/-- R71: bus writes on the Host's turns are one step each, and all they change is registers. -/
theorem run_hostWrites (s : State) (ws : List (Addr × Word s.cfg.W)) (rest : List (HostOp s.cfg.W)) (ts : List Turn) (k : Nat)
    (r : Regs s.cfg) :
    core.run (ws.length + k) { s with
        regs := r, host := ws.map (fun w => .wr w.1 w.2) ++ rest, turns := List.replicate ws.length .host ++ ts } =
      core.run k { s with regs := ws.foldl (fun r w => r.busWrite w.1 w.2) r, host := rest, turns := ts } := by
  induction ws generalizing r with
  | nil => rw [List.length_nil, Nat.zero_add]; rfl
  | cons w ws ih =>
    rw [List.length_cons, Nat.add_right_comm, run_next rfl]
    exact ih (r.busWrite w.1 w.2)

/-- A register value with the words below `cnt` replaced by those of `v`. -/
def copyWords {m : Nat} (W : Nat) (v q : Bits m) : (cnt : Nat) → Bits m
  | 0 => q
  | k + 1 => setWord (copyWords W v q k) k (getWord W v k)

/-- A copied word reads as the source's. -/
theorem getWord_copyWords {m W : Nat} (v q : Bits m) (cnt j : Nat) (hj : j < cnt) (hm : cnt * W ≤ m) :
    getWord W (copyWords W v q cnt) j = getWord W v j := by
  induction cnt with
  | zero => omega
  | succ cnt ih =>
    rw [Nat.succ_mul] at hm
    rw [copyWords]
    by_cases h : j = cnt
    · rw [h, getWord_setWord_same _ _ _ hm]
    · rw [getWord_setWord_other _ _ _ _ h, ih (by omega) (by omega)]

/-- Copying every word copies the value. -/
theorem copyWords_all {N W : Nat} (v q : Bits (N * W)) : copyWords W v q N = v :=
  eq_of_words _ _ fun k hk => getWord_copyWords v q N k hk le_rfl

section seed
variable {c : Config}

/-- R72: the symbolic address of a word of S names that word. -/
theorem regAt_regAddr_s (hc : c.wf = true) {k : Nat} (hk : k < c.N) : regAt c (regAddr (.s k)) = .s k := by
  have hN := (Config.wf_words hc).2
  have haddr : (regAddr (.s k)).toNat = 0x300 + k := by simp [regAddr]; omega
  have hsplit := addr_split (regAddr (.s k))
  have hword := ((regAddr (.s k)).extractLsb' 0 8).isLt
  simp only [regAt, show ((regAddr (.s k)).extractLsb' 8 4).toNat = 3 by omega,
    show ((regAddr (.s k)).extractLsb' 0 8).toNat = k by omega, if_pos hk]

/-- R109: the first `cnt` bus writes of `seed v`. -/
def seedWrites (c : Config) (v : Bits c.n) (cnt : Nat) : List (Addr × Word c.W) :=
  (List.range cnt).map fun k => (regAddr (.s k), getWord c.W v k)

@[simp] theorem length_seedWrites (v : Bits c.n) (cnt : Nat) : (seedWrites c v cnt).length = cnt := by
  simp [seedWrites]

theorem asmSeed_eq_seedWrites (v : Bits c.n) : asmSeed c v = (seedWrites c v c.N).map fun w => .wr w.1 w.2 := by
  simp [asmSeed, asmWrv, seedWrites]

/-- R37: on idle registers the first writes of `seed v` copy that many words to S. -/
theorem foldl_busWrite_seedWrites (hc : c.wf = true) (r : Regs c) (hidle : r.PEND = none) (v : Bits c.n) (cnt : Nat)
    (hcnt : cnt ≤ c.N) :
    (seedWrites c v cnt).foldl (fun r w => r.busWrite w.1 w.2) r = { r with S := copyWords c.W v r.S cnt } := by
  induction cnt with
  | zero => rfl
  | succ cnt ih =>
    rw [seedWrites, List.range_succ, List.map_append, List.foldl_append, ← seedWrites, ih (by omega), List.map_singleton,
      List.foldl_cons, List.foldl_nil, Regs.busWrite_of_idle _ _ _ (by exact hidle), regAt_regAddr_s hc (by omega)]
    rfl

end seed

/-- Settles O17: the N writes copy the N words of `v`, which are all of S. -/
theorem seedCopiesWordsVerbatim : Obligations.SeedCopiesWordsVerbatim := by
  intro s v rest ts hidle hhost hturns
  rw [asmSeed_eq_seedWrites] at hhost
  have hrun := run_hostWrites s (seedWrites s.cfg v s.cfg.N) rest ts 0 s.regs
  rw [length_seedWrites, ← hhost, ← hturns, foldl_busWrite_seedWrites s.cfgOk _ hidle v _ le_rfl, copyWords_all] at hrun
  exact hrun

end Sys2Proof.Machine
end

section
/-! SUPPORT. The sources of a register's changes (spec/10_state.md R33, R38, R43, R44; spec/20_memory.md R77, R78): a step told by the
command it completes or the write it performs, and what every other command and write leaves unchanged. -/

namespace Sys2Proof.Machine

/-- R101: the opcode map gives a command only for its own OP and POW2. -/
theorem decodeFields_eq_ok {op : Nat} {pow2 : Bool} {i : Instr} (h : decodeFields op pow2 = .ok i) :
    op = i.op.toNat ∧ i.pow2 = BitVec.ofBool pow2 := by
  unfold decodeFields at h
  split at h
  case h_13 => split at h <;> cases h
  all_goals cases h; exact ⟨rfl, rfl⟩

/-- R107: the only word of a command is its encoding. -/
theorem eq_encode_of_decode {W : Nat} (hW : 8 ≤ W) {d : Word W} {i : Instr} (h : decode d = .ok i) : d = encode W i := by
  unfold decode at h
  split at h
  · rename_i hrsv
    obtain ⟨hop, hpow2⟩ := decodeFields_eq_ok h
    rw [cmdOp_toNat] at hop
    rw [cmdPow2_eq] at hpow2
    rw [cmdRsv_eq_zero hW] at hrsv
    apply BitVec.eq_of_toNat_eq
    rw [encode_toNat hW, BitVec.toNat_append, hpow2, ← hop,
      ← Nat.shiftLeft_add_eq_or_of_lt (by omega), Nat.shiftLeft_eq]
    by_cases hbit : d.toNat / 16 % 2 = 1
    · simp [hbit]; omega
    · simp [hbit]; omega
  · cases h

/-- The sources of change: the reset input, a command that the Core completes, a write of the Host. In every other step no register
changes, unless the Core fails an illegal word. -/
theorem step_sources {s t : State} (h : step s = .next t) :
    (∃ ts, s.turns = .reset :: ts ∧ t = { s with regs := Regs.reset s.cfg, turns := ts }) ∨
    (∃ i, s.Completes i t) ∨ (∃ a d, s.HostWrites a d t) ∨
    ∃ r hs ts rs ds, t = { s with regs := r, host := hs, turns := ts, reads := rs, draws := ds } ∧
      (r = s.regs ∨ r = s.regs.fail .illegal) := by
  obtain hreset | ⟨ts, hturns, r, ht, hdid⟩ | ⟨ts, hturns, ⟨hs, rs, ds, ht⟩ | ⟨a, d, rest, hhost, ht⟩⟩ :=
    step_cases s t h
  · exact .inl hreset
  · obtain ⟨-, hr⟩ | ⟨d, hpend, ⟨i, hdec, hexec⟩ | ⟨-, hr⟩⟩ := hdid
    · exact .inr (.inr (.inr ⟨r, _, _, _, _, ht, .inl hr⟩))
    · have hd : d = encode s.cfg.W i := eq_encode_of_decode (Config.eight_le_width s.cfgOk) hdec
      exact .inr (.inl ⟨i, hd ▸ hpend, ts, hturns, hexec⟩)
    · exact .inr (.inr (.inr ⟨r, _, _, _, _, ht, .inr hr⟩))
  · exact .inr (.inr (.inr ⟨s.regs, hs, ts, rs, ds, ht, .inl rfl⟩))
  · exact .inr (.inr (.inl ⟨a, d, ts, rest, hturns.imp_right fun ⟨h, h', _⟩ => ⟨h, h'⟩, hhost, ht⟩))

/-- R234: a command that needs coefficients completes on what it computed, or fails on the registers as they were. -/
theorem Regs.requireCoef_cases {c : Config} (r r' : Regs c) :
    r.requireCoef r' = r'.complete ∨ r.requireCoef r' = r.fail .nocoef := by
  unfold Regs.requireCoef
  split
  · exact .inl rfl
  · exact .inr rfl

/-- R102: what command `i` may not do to the registers `r` in making them `r'`: only APPLY writes ACC, only LDP and SELP write
PVALID, only CLRERR changes OVR or clears ERR. -/
structure CommandFrame {c : Config} (i : Instr) (r r' : Regs c) : Prop where
  acc : i ≠ .apply → r'.ACC = r.ACC
  pvalid : i ≠ .ldp → i ≠ .selp → r'.PVALID = r.PVALID
  ovr : i ≠ .clrerr → r'.OVR = r.OVR
  err : i ≠ .clrerr → r.ERR = true → r'.ERR = true

theorem exec_frame (i : Instr) (s : State) : ∃ r, exec i s = .next (s.withRegs r) ∧ CommandFrame i s.regs r := by
  cases i with
  | nop | ldp | riffle | step | apply | clrerr => exact ⟨_, rfl, by constructor <;> simp⟩
  | selp =>
    refine ⟨_, rfl, ?_⟩
    cases coefLookup s.cfg s.regs.KEY with
    | some v => constructor <;> simp [Regs.selp]
    | none => constructor <;> simp [Regs.selp]
  | precomp | mulx | sqr | reduce | reduceP2 =>
    refine ⟨_, rfl, ?_⟩
    obtain h | h := s.regs.requireCoef_cases _
    · rw [h]; constructor <;> simp
    · rw [h]; constructor <;> simp

/-- A step that completes a command changes no register outside the command's frame. -/
theorem State.Completes.frame {s t : State} {i : Instr} (h : s.Completes i t) :
    ∃ r ts, t = { s with regs := r, turns := ts } ∧ CommandFrame i s.regs r := by
  obtain ⟨-, ts, -, hexec⟩ := h
  obtain ⟨r, hr, hframe⟩ := exec_frame i { s with turns := ts }
  exact ⟨r, ts, Host.Outcome.next.inj (hexec.symm.trans hr), hframe⟩

/-- Settles O55: a bus write and every command but CLRERR leave ERR and OVR set, and so does the failure of an illegal word. -/
theorem stickyFlagsStay : Obligations.StickyFlagsStay := by
  intro s t h hfall
  have not_kept (herr : s.regs.ERR = true → t.regs.ERR = true) (hovr : s.regs.OVR = true → t.regs.OVR = true) : False := by
    obtain ⟨hset, hclear⟩ | ⟨hset, hclear⟩ := hfall
    · exact Bool.false_ne_true (hclear.symm.trans (herr hset))
    · exact Bool.false_ne_true (hclear.symm.trans (hovr hset))
  obtain ⟨ts, hturns, -⟩ | ⟨i, hi⟩ | ⟨a, d, ts, rest, -, -, rfl⟩ | ⟨r, hs, ts, rs, ds, rfl, hr⟩ := step_sources h
  · exact .inl ⟨ts, hturns⟩
  · by_cases hclr : i = .clrerr
    · exact .inr (hclr ▸ hi)
    · obtain ⟨r, ts, rfl, hframe⟩ := hi.frame
      exact (not_kept (hframe.err hclr) (hframe.ovr hclr).trans).elim
  · obtain ⟨-, -, -, -, herr, -⟩ := s.regs.busWrite_frame a d
    exact (not_kept herr.trans (s.regs.busWrite_OVR a d)).elim
  · obtain rfl | rfl := hr
    · exact (not_kept id id).elim
    · exact (not_kept (fun _ => rfl) id).elim

/-- Settles O57: no bus write, no other command and no failure writes ACC. -/
theorem accChangesOnlyByApply : Obligations.AccChangesOnlyByApply := by
  intro s t h hacc
  obtain ⟨ts, hturns, -⟩ | ⟨i, hi⟩ | ⟨a, d, ts, rest, -, -, rfl⟩ | ⟨r, hs, ts, rs, ds, rfl, hr⟩ := step_sources h
  · exact .inl ⟨ts, hturns⟩
  · by_cases happly : i = .apply
    · exact .inr (happly ▸ hi)
    · obtain ⟨r, ts, rfl, hframe⟩ := hi.frame
      exact absurd (congrArg BitVec.toNat (hframe.acc happly)) hacc
  · obtain ⟨-, hkeep, -, -, -, -⟩ := s.regs.busWrite_frame a d
    exact absurd (congrArg BitVec.toNat hkeep) hacc
  · obtain rfl | rfl := hr
    · exact absurd rfl hacc
    · exact absurd rfl hacc

/-- R33, R77: the bus write that clears PVALID is one to a word of P, while nothing is pending. -/
theorem Regs.busWrite_clears_PVALID {c : Config} (hc : c.wf = true) {r : Regs c} {a : Addr} {d : Word c.W}
    (hset : r.PVALID = true) (hclear : (r.busWrite a d).PVALID = false) :
    r.PEND = none ∧ ∃ k, k < c.N ∧ a = BitVec.ofNat 12 (0x100 + k) := by
  have hidle : r.PEND = none := by
    by_contra hbusy
    rw [Regs.busWrite_of_busy _ _ _ hbusy] at hclear
    exact absurd (hset.symm.trans hclear) (by decide)
  refine ⟨hidle, ?_⟩
  rw [Regs.busWrite_of_idle _ _ _ hidle] at hclear
  have hmap := regAt_cases hc a
  cases hreg : regAt c a with
  | p k =>
    have hk : (0x100 ≤ a.toNat ∧ a.toNat < 0x100 + c.N) ∧ k = a.toNat - 0x100 := by simpa [hreg] using hmap
    refine ⟨k, by omega, BitVec.eq_of_toNat_eq ?_⟩
    simp; omega
  | _ =>
    rw [hreg] at hclear
    exact absurd (hset.symm.trans hclear) (by decide)

/-- A flag that a step leaves alone neither falls nor rises. -/
theorem flag_unchanged {old new : Bool} {falls rises : Prop} (h : new = old) :
    (old = true → new = false → falls) ∧ (old = false → new = true → rises) := by
  subst h
  cases new <;> simp

/-- Settles O56: LDP only sets PVALID, SELP may set or clear it, a bus write only clears it, and nothing else but the reset input
writes it. -/
theorem pvalidChangesOnlyByItsSources : Obligations.PvalidChangesOnlyByItsSources := by
  intro s t h
  obtain ⟨ts, hturns, rfl⟩ | ⟨i, hi⟩ | ⟨a, d, hwrite⟩ | ⟨r, hs, ts, rs, ds, rfl, hr⟩ := step_sources h
  · exact ⟨fun _ _ => .inl ⟨ts, hturns⟩, fun _ hrise => absurd hrise Bool.false_ne_true⟩
  · by_cases hselp : i = .selp
    · subst hselp
      exact ⟨fun _ _ => .inr (.inl hi), fun _ _ => .inr hi⟩
    by_cases hldp : i = .ldp
    · subst hldp
      refine ⟨fun _ hfall => ?_, fun _ _ => .inl hi⟩
      obtain ⟨-, ts, -, hexec⟩ := hi
      cases hexec
      exact absurd hfall.symm Bool.false_ne_true
    · obtain ⟨r, ts, rfl, hframe⟩ := hi.frame
      exact flag_unchanged (hframe.pvalid hldp hselp)
  · obtain ⟨ts, rest, -, -, rfl⟩ := id hwrite
    refine ⟨fun hset hclear => ?_, fun hclear hset => ?_⟩
    · obtain ⟨hidle, k, hk, rfl⟩ := Regs.busWrite_clears_PVALID s.cfgOk hset hclear
      exact .inr (.inr ⟨hidle, k, d, hk, hwrite⟩)
    · obtain ⟨-, hsame, -⟩ | ⟨hzero, -⟩ := s.regs.busWrite_coefficients a d
      · exact absurd (hclear.symm.trans (hsame.symm.trans hset)) Bool.false_ne_true
      · exact absurd (hzero.symm.trans hset) Bool.false_ne_true
  · have hsame : r.PVALID = s.regs.PVALID := by obtain rfl | rfl := hr <;> rfl
    exact flag_unchanged hsame

/-- Settles O58: while a command is pending a bus write only sets OVR, and the Host's other operations write no register. -/
theorem pendingCommandStaysPending : Obligations.PendingCommandStaysPending := by
  intro s t d ts hpend hturns h
  have ht : t = hostTurn { s with turns := ts } := by
    simp only [step, move, hturns] at h
    exact (Host.Outcome.next.inj h).symm
  subst ht
  obtain ⟨hs, rs, ds, hkeep⟩ | ⟨a, e, rest, -, hwrite⟩ := hostTurn_cases { s with turns := ts }
  · rw [hkeep]; simp [hpend]
  · rw [hwrite, Regs.busWrite_of_busy _ _ _ (by simp [hpend])]; simp [hpend]

end Sys2Proof.Machine
end

section
/-! SUPPORT. Bus accesses by address (spec/20_memory.md R71 to R79): the words of a register, the Host's turn as one operation, and
what each address reads as and takes, idle and busy. -/

namespace Sys2Proof.Machine

/-- Settles O10: from the bits of a word, and from reading the word written and the others. -/
theorem wordsAreLittleEndian : Obligations.WordsAreLittleEndian := by
  intro W m v k d
  refine ⟨fun i hi => ?_, fun hfit => ?_, fun j hjk => getWord_setWord_other v k j d hjk⟩
  · rw [getWord_getLsbD]; simp [hi]
  · exact getWord_setWord_same v k d (by rwa [← Nat.succ_mul])

/-- R71, R108: on the Host's turn a step performs its next operation, which is then past. -/
theorem step_of_hostOp {s : State} {op : HostOp s.cfg.W} {rest : List (HostOp s.cfg.W)} {ts : List Turn}
    (hturns : s.turns = .host :: ts) (hhost : s.host = op :: rest) :
    step s = .next (hostOp { s with turns := ts } rest op) := by
  simp only [step, move, hturns, hostTurn, hhost]

/-- Settles O11: the operation is the bus write. -/
theorem hostWriteIsOneStep : Obligations.HostWriteIsOneStep := by
  intro s a d rest ts hturns hhost
  exact step_of_hostOp hturns hhost

/-- A read draws one free value or none (R79, log 9). -/
theorem State.draws_le_busRead (s : State) (a : Addr) : s.draws ≤ (s.busRead a).draws := by
  unfold State.busRead
  split
  · exact Nat.le_succ _
  · exact le_rfl

/-- Settles O12: the operation is the bus read, which writes the host's record and the draw counter only. -/
theorem hostReadHasNoSideEffect : Obligations.HostReadHasNoSideEffect := by
  intro s a rest ts hturns hhost
  exact ⟨(s.busRead a).draws, step_of_hostOp hturns hhost, s.draws_le_busRead a⟩

/-- Settles O13: the step is the bus write, which a pending command drops. -/
theorem writesWhileBusyAreDropped : Obligations.WritesWhileBusyAreDropped := by
  intro s a d rest ts hbusy hturns hhost
  rw [hostWriteIsOneStep s a d rest ts hturns hhost, Regs.busWrite_of_busy _ _ _ hbusy]

section reads
variable {s : State} {a : Addr}

theorem State.readValue_of_draws (h : s.readDraws a = true) : s.readValue a = Config.freeRead s.cfg.W s.draws := by
  rw [State.readValue, if_pos h]

theorem State.readValue_of_not_draws (h : s.readDraws a = false) : s.readValue a = s.regs.readWord (regAt s.cfg a) := by
  simp [State.readValue, h]

theorem State.busRead_draws_of_draws (h : s.readDraws a = true) : (s.busRead a).draws = s.draws + 1 := by
  simp [State.busRead, h]

/-- R76: nothing is left unspecified while BUSY = 0. -/
theorem State.readDraws_of_idle (h : s.regs.PEND = none) : s.readDraws a = false := by
  simp [State.readDraws, s.regs.busy_eq_false.2 h]

theorem State.readDraws_of_busy (h : s.regs.PEND ≠ none) : s.readDraws a = !exactWhileBusy (regAt s.cfg a) := by
  simp [State.readDraws, s.regs.busy_eq_true.2 h]

end reads

/-- Addresses compare as numbers; only at the width of an address, so that no equation of words is rewritten with it. -/
theorem addr_eq_iff (a b : Addr) : a = b ↔ a.toNat = b.toNat := BitVec.toNat_inj.symm

/-- Settles O9: along the register map, the conditions of each clause decided by the block the address lies in. -/
theorem idleAccessesFollowTheRegisterMap : Obligations.IdleAccessesFollowTheRegisterMap := by
  intro s a d hidle
  have hN := (Config.wf_words s.cfgOk).2
  have hNJ := (Config.wf_exponentWords s.cfgOk).2
  rw [State.readValue_of_not_draws (State.readDraws_of_idle hidle), Regs.busWrite_of_idle _ _ _ hidle]
  rcases regAt_cases s.cfgOk a with h | h | h | h | h | h | h | h | h | h | h | h
  all_goals
    obtain ⟨ha, hreg⟩ := h
    rw [hreg]
    simp (disch := omega) only [addr_eq_iff, BitVec.reduceToNat, if_pos, if_neg]
    exact ⟨rfl, rfl⟩

/-- R79: the addresses of KEY, RIN, RLO, RHI and of the words of P, R, S, ACC and J. -/
def DataAddr (c : Config) (a : Addr) : Prop :=
  (0x002 ≤ a.toNat ∧ a.toNat ≤ 0x005) ∨ (0x100 ≤ a.toNat ∧ a.toNat < 0x100 + c.N) ∨
  (0x200 ≤ a.toNat ∧ a.toNat < 0x200 + c.N) ∨ (0x300 ≤ a.toNat ∧ a.toNat < 0x300 + c.N) ∨
  (0x400 ≤ a.toNat ∧ a.toNat < 0x400 + c.N) ∨ (0x500 ≤ a.toNat ∧ a.toNat < 0x500 + c.NJ)

/-- R72, R79: an address holds data, which is not exact while BUSY = 1, or it names STATUS, or it names CMD or nothing. -/
theorem regAt_exact_cases {c : Config} (hc : c.wf = true) (a : Addr) :
    (DataAddr c a ∧ a ≠ 0x001 ∧ exactWhileBusy (regAt c a) = false) ∨
    (¬ DataAddr c a ∧ a = 0x001 ∧ regAt c a = .status) ∨
    (¬ DataAddr c a ∧ a ≠ 0x001 ∧ (regAt c a = .cmd ∨ regAt c a = .unmapped)) := by
  unfold DataAddr
  simp only [ne_eq, addr_eq_iff, BitVec.reduceToNat]
  rcases regAt_cases hc a with h | h | h | h | h | h | h | h | h | h | h | h
  all_goals
    obtain ⟨ha, hreg⟩ := h
    simp only [hreg, exactWhileBusy, reduceCtorEq, or_true, or_false, and_true, and_false, false_or]
    omega

/-- Settles O14: an address of data draws a free value, any other reads as the register map says. -/
theorem readsWhileBusyDraw : Obligations.ReadsWhileBusyDraw := by
  intro s a hbusy data
  have hdraws := State.readDraws_of_busy (a := a) hbusy
  obtain ⟨hdata, ha, hexact⟩ | ⟨hdata, ha, hreg⟩ | ⟨hdata, ha, hreg⟩ := regAt_exact_cases s.cfgOk a
  · rw [hexact] at hdraws
    exact ⟨fun h => absurd h ha, fun _ => ⟨State.readValue_of_draws hdraws, State.busRead_draws_of_draws hdraws⟩,
      fun _ h => absurd hdata h⟩
  · rw [hreg] at hdraws
    refine ⟨fun _ => ?_, fun h => absurd h hdata, fun h _ => absurd ha h⟩
    rw [State.readValue_of_not_draws hdraws, hreg, Regs.readWord]
  · refine ⟨fun h => absurd h ha, fun h => absurd h hdata, fun _ _ => ?_⟩
    obtain hreg | hreg := hreg
    all_goals
      rw [hreg] at hdraws
      rw [State.readValue_of_not_draws hdraws, hreg, Regs.readWord]

end Sys2Proof.Machine
end

section
/-! SUPPORT. The command word (spec/30_encoding.md R100 to R107, R110): the decoder and the encoder are inverse to each other, and the
decoder takes the legal words. -/

namespace Sys2Proof

/-- R107: an encoding decodes to its command. -/
theorem decode_encode {W : Nat} (hW : 8 ≤ W) (i : Instr) : decode (encode W i) = .ok i := by
  have hrsv : cmdRsv (encode W i) = 0 := by
    rw [cmdRsv_eq_zero hW, encode_toNat hW]
    exact (i.pow2 ++ i.op).isLt
  rw [decode, if_pos hrsv, cmdOp_toNat, cmdPow2_eq, encode_toNat hW]
  cases i <;> rfl

/-- Settles O2: an encoding decodes to its command, and the fields the decoder read are all of the word. -/
theorem decodeInvertsEncode : Obligations.DecodeInvertsEncode := by
  intro W hW d i
  constructor
  · exact Machine.eq_encode_of_decode hW
  · rintro rfl
    exact decode_encode hW i

/-- R101: the opcode map has a command for every OP up to 0xA, and one with POW2 = 1 for OP = 0x6 only. -/
theorem exists_decodeFields_eq_ok_iff {op : Nat} {pow2 : Bool} :
    (∃ i, decodeFields op pow2 = .ok i) ↔ op ≤ 0xA ∧ (pow2 = false ∨ op = 0x6) := by
  constructor
  · rintro ⟨i, h⟩
    obtain ⟨rfl, hpow2⟩ := Machine.decodeFields_eq_ok h
    cases pow2 with
    | false => exact ⟨by cases i <;> decide, .inl rfl⟩
    | true =>
      cases i with
      | reduceP2 => exact ⟨by decide, .inr rfl⟩
      | _ => exact absurd hpow2 (by decide)
  · rintro ⟨hop, rfl | rfl⟩
    · interval_cases op <;> exact ⟨_, rfl⟩
    · cases pow2 <;> exact ⟨_, rfl⟩

/-- R105: the legality rule on the fields of the word. -/
theorem legal_iff_fields {W : Nat} (d : Word W) :
    legal d = true ↔ cmdRsv d = 0 ∧ (cmdOp d).toNat ≤ 0xA ∧ (cmdPow2 d = false ∨ (cmdOp d).toNat = 0x6) := by
  simp [legal, ← BitVec.toNat_inj, and_assoc]

/-- R105: the decoder takes exactly the legal words. -/
theorem legal_iff_exists_decode {W : Nat} (d : Word W) : legal d = true ↔ ∃ i, decode d = .ok i := by
  rw [legal_iff_fields, decode]
  split
  · rename_i hrsv
    rw [exists_decodeFields_eq_ok_iff]
    exact and_iff_right hrsv
  · rename_i hrsv
    exact iff_of_false (fun h => hrsv h.1) (fun ⟨_, h⟩ => nomatch h)

/-- Bits are zero from bit `k` up in the words below `2^k` and in no other. -/
theorem high_bits_zero_iff {W : Nat} (d : Word W) (k : Nat) : (∀ i, k ≤ i → d.getLsbD i = false) ↔ d.toNat < 2 ^ k := by
  constructor
  · exact Nat.lt_pow_two_of_testBit d.toNat
  · intro hd i hi
    exact Nat.testBit_lt_two_pow (hd.trans_le (Nat.pow_le_pow_right Nat.two_pos hi))

/-- Settles O3: each clause is the legality rule on the fields, with the fields read as numbers. -/
theorem legalWordsAreTheTwelve : Obligations.LegalWordsAreTheTwelve := by
  intro W hW d
  refine ⟨?_, ?_, legal_iff_exists_decode d⟩
  · rw [legal_iff_fields, cmdRsv_eq_zero hW, cmdOp_toNat, high_bits_zero_iff]
    rfl
  · rw [legal_iff_fields, cmdRsv_eq_zero hW, cmdOp_toNat, cmdPow2_eq, decide_eq_false_iff_not]
    omega

/-- Settles O1: the words are the encodings, which decode to their commands; the two illegal words are evaluated. -/
theorem encodingExamplesDecode : Obligations.EncodingExamplesDecode := by
  have decoded (is : List Instr) : (is.map (encode 64)).map (fun d => (decode d).toOption) = is.map some := by
    rw [List.map_map]
    exact List.map_congr_left fun i _ => congrArg Except.toOption (decode_encode (by decide) i)
  exact ⟨by decide, decoded [.nop, .ldp, .selp, .precomp, .mulx, .sqr, .reduce, .reduceP2, .riffle, .step, .apply, .clrerr],
    by decide, by decide⟩

end Sys2Proof
end

section
/-! SUPPORT. The Core's turn and the Host's poll (spec/30_encoding.md R104, R109). -/

namespace Sys2Proof.Machine

section coreTurn
variable {s : State}

/-- R104: the Core's turn with a command pending is that command's meaning. -/
theorem coreTurn_of_decode {d : Word s.cfg.W} {i : Instr} (hpend : s.regs.PEND = some d) (hdec : decode d = .ok i) :
    coreTurn s = exec i s := by
  simp only [coreTurn, hpend, performWord, hdec]

/-- R104: with nothing pending the Core's step is not enabled (log 8). -/
theorem coreTurn_of_idle (hidle : s.regs.PEND = none) : coreTurn s = .next s := by
  simp only [coreTurn, hidle]

/-- Where `turns` names the Core, the step is the Core's. -/
theorem step_of_coreTurn {ts : List Turn} (hturns : s.turns = .core :: ts) : step s = coreTurn { s with turns := ts } := by
  simp only [step, move, hturns]

/-- Where `turns` says nothing more, a pending command gives the Core the step (log 8). -/
theorem step_of_no_turn (hturns : s.turns = []) (hbusy : s.regs.PEND ≠ none) : step s = coreTurn s := by
  simp only [step, move, hturns, s.regs.busy_eq_true.2 hbusy, if_true]

end coreTurn

/-- Settles O4: in each case the step is the Core's turn with `d` pending. -/
theorem stepPerformsTheDecodedCommand : Obligations.StepPerformsTheDecodedCommand := by
  intro s d i hdec
  refine ⟨(step_of_coreTurn rfl).trans (coreTurn_of_decode rfl hdec), fun hpend => ⟨fun ts hturns => ?_, fun hturns => ?_⟩⟩
  · exact (step_of_coreTurn hturns).trans (coreTurn_of_decode hpend hdec)
  · exact (step_of_no_turn hturns (by simp [hpend])).trans (coreTurn_of_decode hpend hdec)

/-- Settles O6: the step is the Core's turn, with nothing pending. -/
theorem idleCoreTurnChangesNothing : Obligations.IdleCoreTurnChangesNothing := by
  intro s ts hidle hturns
  exact (step_of_coreTurn hturns).trans (coreTurn_of_idle hidle)

/-- R76, R79: STATUS reads exactly at any time. -/
theorem State.readValue_status (s : State) : s.readValue (regAddr .status) = s.regs.status := by
  have hreg : regAt s.cfg (regAddr .status) = .status := rfl
  have hdraws : s.readDraws (regAddr .status) = false := by simp [State.readDraws, hreg, exactWhileBusy]
  rw [State.readValue_of_not_draws hdraws, hreg, Regs.readWord]

/-- R109: `wait` stays while BUSY = 1 and otherwise is past. -/
theorem hostOp_wait (s : State) (rest : List (HostOp s.cfg.W)) :
    hostOp s rest .wait = if s.regs.busy then s else { s with host := rest } := by
  simp only [hostOp, State.readValue_status, Regs.status_getLsbD s.cfgOk]

/-- Settles O15: the operation is the poll, whose answer is whether a command is pending. -/
theorem waitPollsBusy : Obligations.WaitPollsBusy := by
  intro s rest ts hturns hhost
  rw [step_of_hostOp hturns hhost, hostOp_wait]
  refine ⟨fun hidle => ?_, fun hbusy => ?_⟩
  · rw [if_neg (by simpa using hidle)]
  · rw [if_pos (by simpa using hbusy)]

end Sys2Proof.Machine
end

section
/-! SUPPORT. What a command writes and what its result depends on (spec/30_encoding.md R102; spec/42_polynomial.md R165). -/

namespace Sys2Proof.Machine

/-- Settles O53: a command writes its own registers and completes; SELP's miss and the failure of a command that needs coefficients
write flags only. -/
theorem commandsWriteOnlyTheirTargets : Obligations.CommandsWriteOnlyTheirTargets := by
  intro i s
  cases i with
  | nop | ldp | riffle | step | apply | clrerr => exact ⟨_, rfl, by simp⟩
  | selp =>
    refine ⟨_, rfl, ?_⟩
    cases coefLookup s.cfg s.regs.KEY with
    | some v => simp [Regs.selp]
    | none => simp [Regs.selp]
  | precomp | mulx | sqr | reduce | reduceP2 =>
    refine ⟨_, rfl, ?_⟩
    obtain h | h := s.regs.requireCoef_cases _
    · rw [h]; simp
    · rw [h]; simp

/-- R102: the value the commands of the polynomial unit leave in R, as a function of P, R and J; every other command keeps R. -/
def polyResult (c : Config) (p r : Bits c.n) (j : Bits c.JBITS) : Instr → Bits c.n
  | .mulx => mulx p r
  | .sqr => sqr c.W c.N (powmod p) r
  | .reduce => reduceLit c.W c.N p (powmod p) j.toNat
  | .reduceP2 => reducePow2 c.W c.N (powmod p) j.toNat
  | _ => r

/-- R165: with coefficients committed, the commands of the polynomial unit leave that value in R, whether or not the table is built. -/
theorem exec_polyResult {s : State} (hvalid : s.regs.PVALID = true)
    (htable : s.regs.PMVALID = true → s.regs.PM = powmod s.regs.P) {i : Instr}
    (hi : i ∈ [Instr.mulx, .sqr, .reduce, .reduceP2]) :
    ∃ q, exec i s = .next (s.withRegs q) ∧ q.R = polyResult s.cfg s.regs.P s.regs.R s.regs.J i := by
  have hpm := Regs.ensurePm_PM_of_agrees s.regs htable
  simp only [List.mem_cons, List.not_mem_nil, or_false] at hi
  obtain rfl | rfl | rfl | rfl := hi
  all_goals
    refine ⟨_, rfl, ?_⟩
    rw [Regs.requireCoef_of_valid _ _ hvalid]
    simp only [Regs.complete_R, Regs.square, Regs.exponent, hpm, polyResult]

/-- R102: MULX and SQR do not read J, REDUCE and REDUCE.P2 do not read R. -/
theorem polyResult_congr {c : Config} (p : Bits c.n) {r r' : Bits c.n} {j j' : Bits c.JBITS} {i : Instr}
    (h : i ∈ [Instr.mulx, .sqr] ∧ r' = r ∨ i ∈ [Instr.reduce, .reduceP2] ∧ j' = j) :
    polyResult c p r' j' i = polyResult c p r j i := by
  simp only [List.mem_cons, List.not_mem_nil, or_false] at h
  obtain ⟨rfl | rfl, rfl⟩ | ⟨rfl | rfl, rfl⟩ := h <;> rfl

/-- Settles O54: APPLY, STEP and RIFFLE compute from the registers named; the polynomial unit's value is one function of P, R and J,
the table being `powmod(P)` either way. -/
theorem resultsDependOnlyOnTheOperands : Obligations.ResultsDependOnlyOnTheOperands := by
  intro s r
  refine ⟨fun hR hS => ⟨_, _, rfl, rfl, ?_⟩, fun hS => ⟨_, _, rfl, rfl, ?_⟩, fun hRIN => ⟨_, _, rfl, rfl, ?_⟩, ?_⟩
  · simp [hR, hS]
  · simp [hS]
  · simp [hRIN]
  · intro hP hvalid' hvalid htable' htable i hi
    have hmem : i ∈ [Instr.mulx, .sqr, .reduce, .reduceP2] := by
      simp only [List.mem_cons, List.not_mem_nil, or_false] at hi ⊢
      tauto
    obtain ⟨q, hq, hqR⟩ := exec_polyResult hvalid htable hmem
    obtain ⟨q', hq', hqR'⟩ := exec_polyResult (s := s.withRegs r) hvalid' htable' hmem
    refine ⟨q, q', hq, hq', ?_⟩
    rw [hqR', hqR, State.withRegs_regs, hP]
    exact polyResult_congr s.regs.P hi

end Sys2Proof.Machine
end

section
/-! SUPPORT. The riffle word by word, and the double-length riffle as a word vector, a bit vector and a polynomial (spec/40_riffle.md
R130 to R132). -/

namespace Sys2Proof
open Machine Polynomial

/-- R130: a spread word holds the bits from `off` on at its even positions and zeros at its odd ones. -/
theorem spread_bit_pair {W : Nat} (w : Word W) (off : Nat) {j : Nat} (hj : j < W / 2) :
    (spread w off).getLsbD (2 * j) = w.getLsbD (off + j) ∧ (spread w off).getLsbD (2 * j + 1) = false := by
  rw [spread_getLsbD, spread_getLsbD]
  constructor
  · simp [show 2 * j < W by omega]
  · simp

/-- Settles O28: the two outputs are the halves of RIN, spread. -/
theorem riffleInterleavesWithZeros : Obligations.RiffleInterleavesWithZeros := by
  intro s
  refine ⟨riffleLo s.regs.RIN, riffleHi s.regs.RIN, rfl, fun j hj => ?_⟩
  obtain ⟨lo_even, lo_odd⟩ := spread_bit_pair s.regs.RIN 0 hj
  obtain ⟨hi_even, hi_odd⟩ := spread_bit_pair s.regs.RIN (s.cfg.W / 2) hj
  rw [Nat.zero_add] at lo_even
  exact ⟨lo_even, lo_odd, hi_even, hi_odd⟩

/-- R132: word `q` of the double-length riffle is a half of word `q / 2` of `v`, the low one for an even `q`. -/
theorem getWord_dbl {W N : Nat} (v : Bits (N * W)) {q : Nat} (hq : q < 2 * N) :
    getWord W (dbl W N v) q =
      if q % 2 = 0 then riffleLo (getWord W v (q / 2)) else riffleHi (getWord W v (q / 2)) :=
  getWord_packWords _ _ _ q hq (Nat.mul_assoc 2 N W).le

theorem natDegree_toPoly_le {n : Nat} (v : Bits n) : (toPoly v).natDegree ≤ n - 1 := by
  rw [natDegree_le_iff_coeff_eq_zero]
  intro i hi
  rw [coeff_toPoly, BitVec.getLsbD_of_ge v i (by omega)]
  rfl

/-- Settles O29: the words are the ones packed, the bits follow from `dbl_getLsbD`, and the degree is that of a square. -/
theorem doubleRiffleSquares : Obligations.DoubleRiffleSquares := by
  intro c hc v
  have hW : 0 < c.W := by have := Config.eight_le_width hc; omega
  have heven : c.W % 2 = 0 := by rcases Config.wf_width hc with h | h | h | h <;> omega
  have square : toPoly (dbl c.W c.N v) = toPoly v ^ 2 := toPoly_dbl hW heven v
  refine ⟨fun k hk => ⟨?_, ?_⟩, fun i _ => ⟨?_, ?_⟩, square, ?_⟩
  · rw [getWord_dbl v (by omega), if_pos (by omega), Nat.mul_div_cancel_left k Nat.two_pos]
  · rw [getWord_dbl v (by omega), if_neg (by omega), show (2 * k + 1) / 2 = k by omega]
  · rw [dbl_getLsbD hW heven]
    simp
  · rw [dbl_getLsbD hW heven]
    simp
  · have := natDegree_toPoly_le v
    rw [square, natDegree_pow]
    omega

end Sys2Proof
end

section
/-! SUPPORT. How characteristic coefficients enter the block (spec/41_coefficients.md R141 to R147): the commands LDP, SELP and PRECOMP,
the modulus `x^n`, and the invariant of the registers (R146; spec/60_exceptions.md R231, R232; spec/40_riffle.md R131). -/

namespace Sys2Proof.Machine

/-! ### LDP, SELP and PRECOMP -/

theorem exec_selp (s : State) : exec .selp s = .next (s.withRegs (s.regs.selp (coefLookup s.cfg s.regs.KEY))) := rfl

theorem exec_precomp (s : State) :
    exec .precomp s = .next (s.withRegs (s.regs.requireCoef { s.regs with PM := powmod s.regs.P, PMVALID := true })) := rfl

/-- Settles O24: LDP is the two flags and the completion, by definition. -/
theorem ldpCommitsP : Obligations.LdpCommitsP := fun _ => rfl

/-- Settles O25: SELP is decided by what COEF_ROM answers for KEY. -/
theorem selpLoadsOrFails : Obligations.SelpLoadsOrFails := by
  intro s
  refine ⟨fun v hentry => ?_, fun hmiss => ?_⟩
  · have hlookup : coefLookup s.cfg s.regs.KEY = some v := hentry
    rw [exec_selp, hlookup]
    rfl
  · have hlookup : coefLookup s.cfg s.regs.KEY = none := hmiss
    rw [exec_selp, hlookup]
    rfl

/-- Settles O26: the table is `powmod(P)`, whose entry `i` is P multiplied by x `i` times. -/
theorem precompBuildsTheTable : Obligations.PrecompBuildsTheTable := by
  intro s
  refine ⟨fun hinvalid => ?_, fun hvalid => ⟨powmod s.regs.P, ?_, fun h => ?_, fun i h => ?_⟩⟩
  · rw [exec_precomp, Regs.requireCoef_of_invalid _ _ hinvalid]
    rfl
  · rw [exec_precomp, Regs.requireCoef_of_valid _ _ hvalid]
    rfl
  · rw [powmod_getElem, Function.iterate_zero_apply]
  · rw [powmod_getElem, powmod_getElem, Function.iterate_succ_apply']

/-! ### The invariant of the registers -/

/-- The part of the invariant that a command's result can break: a valid table is that of committed coefficients (R146), and the riffle
outputs are spread (R131). The rest, on ECODE and ERR, every end of a command establishes. -/
structure Regs.DataInv {c : Config} (r : Regs c) : Prop where
  table : r.PMVALID = true → r.PVALID = true ∧ r.PM = powmod r.P
  spread : ∀ i < c.W, i % 2 = 1 → r.RLO.getLsbD i = false ∧ r.RHI.getLsbD i = false

theorem Regs.inv_iff {c : Config} {r : Regs c} :
    r.Inv ↔ r.DataInv ∧ (r.ECODE = 0 ∨ r.ECODE = 1 ∨ r.ECODE = 2) ∧ (r.ECODE ≠ 0 → r.ERR = true) :=
  ⟨fun ⟨htable, hcode, herr, hspread⟩ => ⟨⟨htable, hspread⟩, hcode, herr⟩,
    fun ⟨⟨htable, hspread⟩, hcode, herr⟩ => ⟨htable, hcode, herr, hspread⟩⟩

theorem Regs.inv_reset (c : Config) : (Regs.reset c).Inv := by simp [Regs.Inv]

theorem spread_odd_bit {W : Nat} (w : Word W) (off : Nat) {i : Nat} (hodd : i % 2 = 1) :
    (spread w off).getLsbD i = false := by
  rw [spread_getLsbD]
  simp [hodd]

section
variable {c : Config} {r : Regs c} (h : r.DataInv)
include h

theorem Regs.DataInv.complete : r.complete.Inv := inv_iff.2 ⟨⟨h.table, h.spread⟩, by simp⟩

theorem Regs.DataInv.fail (k : FailCode) : (r.fail k).Inv :=
  inv_iff.2 ⟨⟨h.table, h.spread⟩, by cases k <;> simp [failEcode]⟩

/-- R234: a command that needs coefficients has to keep the table and the riffle outputs only where it finds coefficients. -/
theorem Regs.DataInv.requireCoef {r' : Regs c} (h' : r.PVALID = true → r'.DataInv) : (r.requireCoef r').Inv := by
  cases hvalid : r.PVALID with
  | true => rw [requireCoef_of_valid _ _ hvalid]; exact (h' hvalid).complete
  | false => rw [requireCoef_of_invalid _ _ hvalid]; exact h.fail .nocoef

/-- R141 to R143: whatever becomes of P and PVALID, nothing is claimed of the table once PMVALID is cleared. -/
theorem Regs.DataInv.dropTable (p : Bits c.n) (valid : Bool) :
    ({ r with P := p, PVALID := valid, PMVALID := false } : Regs c).DataInv :=
  ⟨fun hset => absurd hset Bool.false_ne_true, h.spread⟩

/-- R145: the table PRECOMP builds is that of the committed P. -/
theorem Regs.DataInv.buildTable (hvalid : r.PVALID = true) :
    ({ r with PM := powmod r.P, PMVALID := true } : Regs c).DataInv :=
  ⟨fun _ => ⟨hvalid, rfl⟩, h.spread⟩

theorem Regs.DataInv.ensurePm (hvalid : r.PVALID = true) : r.ensurePm.DataInv := by
  unfold Regs.ensurePm
  split
  · exact h
  · exact h.buildTable hvalid

/-- R36: the invariant does not speak of R. -/
theorem Regs.DataInv.writeR (v : Bits c.n) : ({ r with R := v } : Regs c).DataInv := ⟨h.table, h.spread⟩

/-- R131: both halves of any riffled word are spread. -/
theorem Regs.DataInv.riffle (w : Word c.W) : ({ r with RLO := riffleLo w, RHI := riffleHi w } : Regs c).DataInv :=
  ⟨h.table, fun _ _ hodd => ⟨spread_odd_bit w 0 hodd, spread_odd_bit w (c.W / 2) hodd⟩⟩

theorem Regs.DataInv.selp (entry : Option (Bits c.n)) : (r.selp entry).Inv := by
  cases entry with
  | some v => exact (h.dropTable v true).complete
  | none => exact (h.dropTable r.P false).fail .nocoef

end

/-- R76 to R78: a bus write reaches none of the registers of the invariant but P, and clears PMVALID with it. -/
theorem Regs.Inv.busWrite {c : Config} {r : Regs c} (h : r.Inv) (a : Addr) (d : Word c.W) : (r.busWrite a d).Inv := by
  obtain ⟨htable, hcode, herr, hspread⟩ := h
  obtain ⟨hPM, -, hRLO, hRHI, hERR, hECODE⟩ := r.busWrite_frame a d
  refine ⟨?_, by rwa [hECODE], by rwa [hECODE, hERR], by rwa [hRLO, hRHI]⟩
  obtain ⟨hP, hPVALID, hPMVALID⟩ | ⟨-, hcleared⟩ := r.busWrite_coefficients a d
  · rwa [hP, hPVALID, hPMVALID, hPM]
  · exact fun hset => absurd (hcleared.symm.trans hset) Bool.false_ne_true

/-- Every command keeps the table and the riffle outputs, and by ending puts ECODE and ERR in order. -/
theorem exec_inv (i : Instr) (s : State) (h : s.regs.DataInv) : ∃ r, exec i s = .next (s.withRegs r) ∧ r.Inv := by
  refine (exec_next i s).imp fun r hr => ⟨hr, ?_⟩
  cases i with
  | nop => cases hr; exact h.complete
  | ldp => cases hr; exact (h.dropTable s.regs.P true).complete
  | selp => cases hr; exact h.selp _
  | precomp => cases hr; exact h.requireCoef h.buildTable
  | mulx => cases hr; exact h.requireCoef fun _ => h.writeR _
  | sqr | reduce | reduceP2 => cases hr; exact h.requireCoef fun hvalid => (h.ensurePm hvalid).writeR _
  | riffle => cases hr; exact (h.riffle s.regs.RIN).complete
  | step | apply | clrerr =>
    cases hr
    exact Regs.DataInv.complete ⟨h.table, h.spread⟩

/-- Settles O59: along the sources of a step's changes. -/
theorem invariantIsKept : Obligations.InvariantIsKept := by
  intro s t hinv h
  have hdata : s.regs.DataInv := (Regs.inv_iff.1 hinv).1
  obtain ⟨ts, -, rfl⟩ | ⟨i, -, ts, -, hexec⟩ | ⟨a, d, ts, rest, -, -, rfl⟩ | ⟨r, hs, ts, rs, ds, rfl, hr⟩ := step_sources h
  · exact Regs.inv_reset s.cfg
  · obtain ⟨r, hr, hkept⟩ := exec_inv i { s with turns := ts } hdata
    rw [hr] at hexec
    cases hexec
    exact hkept
  · exact hinv.busWrite a d
  · obtain rfl | rfl := hr
    · exact hinv
    · exact hdata.fail .illegal

/-- Settles O60: `State.reset` is the reset state of one configuration. -/
theorem invariantHoldsAtReset : Obligations.InvariantHoldsAtReset :=
  ⟨Regs.inv_reset Config.xs256, fun c _ => Regs.inv_reset c⟩

end Sys2Proof.Machine

namespace Sys2Proof
open Machine Polynomial

/-! ### P = 0 -/

/-- R147: with P = 0, `c(x) = x^n`. -/
theorem modulus_zero {n : Nat} : modulus (0 : Bits n) = X ^ n := by
  rw [modulus, toPoly_zero, add_zero]

/-- R147: with P = 0, everything from `x^n` up reduces to nothing. -/
theorem X_pow_mul_modByMonic_modulus_zero {n : Nat} (f : (ZMod 2)[X]) : (X ^ n * f) %ₘ modulus (0 : Bits n) = 0 := by
  rw [modulus_zero, modByMonic_eq_zero_iff_dvd (monic_X_pow n)]
  exact dvd_mul_right _ _

/-- R147: with P = 0, `mulx` has no fold. -/
theorem mulx_zero_left {n : Nat} (v : Bits n) : mulx 0 v = v <<< 1 := by
  unfold mulx
  split
  · exact BitVec.xor_zero
  · rfl

theorem powmod_zero_getElem {n : Nat} (i : Nat) (h : i < n) : (powmod (0 : Bits n))[i] = 0 := by
  apply toPoly_injective
  rw [toPoly_powmod, pow_add, X_pow_mul_modByMonic_modulus_zero, toPoly_zero]

/-- R147: with P = 0, folding the high half adds nothing. -/
theorem foldHigh_powmod_zero {n : Nat} (h acc : Bits n) : foldHigh h 0 (powmod 0).toList acc = acc := by
  apply toPoly_injective
  rw [toPoly_foldHigh_powmod, X_pow_mul_modByMonic_modulus_zero, add_zero]

/-- Settles O41: nothing folds, in `mulx`, in the table and in the square. -/
theorem zeroPMeansModulusXToTheN : Obligations.ZeroPMeansModulusXToTheN := by
  intro c _ v
  refine ⟨modulus_zero, ?_, powmod_zero_getElem, fun j hj => ?_⟩
  · apply BitVec.eq_of_toNat_eq
    rw [mulx_zero_left, BitVec.toNat_shiftLeft, BitVec.toNat_ofNat, Nat.shiftLeft_eq, pow_one, Nat.mul_comm]
  · rw [sqr, foldHigh_powmod_zero, BitVec.getLsbD_extractLsb']
    simp [hj]

end Sys2Proof
end

section
/-! SUPPORT. The polynomial unit (spec/42_polynomial.md R160 to R169): `mulx` and `sqr` at each bit, powers of x under them, the
square-and-multiply loop, and the commands MULX, SQR, REDUCE and REDUCE.P2. -/

namespace Sys2Proof
open Machine Polynomial

/-! ### `mulx` -/

/-- Settles O30: the shift moves bit `i - 1` to bit `i`, and the top bit decides whether P is added. -/
theorem mulxShiftsAndFolds : Obligations.MulxShiftsAndFolds := by
  intro n p v i hi
  have shifted : (v <<< 1).getLsbD i = (decide (0 < i) && v.getLsbD (i - 1)) := by
    rw [BitVec.getLsbD_shiftLeft]
    simp [hi, Nat.pos_iff_ne_zero]
  unfold mulx
  cases v.getLsbD (n - 1) with
  | true => rw [if_pos rfl, BitVec.getLsbD_xor, shifted, Bool.true_and]
  | false => rw [if_neg Bool.false_ne_true, shifted, Bool.false_and, Bool.xor_false]

/-- R162: `mulx` is linear, as multiplication by x is. -/
theorem mulx_xor {n : Nat} (p v w : Bits n) : mulx p (v ^^^ w) = mulx p v ^^^ mulx p w := by
  apply toPoly_injective
  rw [toPoly_xor, toPoly_mulx, toPoly_mulx, toPoly_mulx, toPoly_xor, mul_add, add_modByMonic]

/-- Settles O31: by the polynomial reading of `mulx`. -/
theorem mulxIsTimesXModC : Obligations.MulxIsTimesXModC :=
  fun _ p v w => ⟨toPoly_mulx p v, mulx_xor p v w⟩

/-! ### `sqr` -/

/-- R163: the fold is a loop over the table with the place of each entry. -/
theorem foldHigh_eq_foldl_zipIdx {n : Nat} (h : Bits n) (i : Nat) (table : List (Bits n)) (acc : Bits n) :
    foldHigh h i table acc = (table.zipIdx i).foldl (fun acc e => if h.getLsbD e.2 then acc ^^^ e.1 else acc) acc := by
  induction table generalizing i acc with
  | nil => rfl
  | cons m ms ih => rw [foldHigh, ih, List.zipIdx_cons, List.foldl_cons]

theorem zipIdx_toList {n : Nat} (pm : Vector (Bits n) n) :
    pm.toList.zipIdx = (List.finRange n).map fun i => (pm[i], i.val) := by
  apply List.ext_getElem
  · simp
  · intro i h _
    simp

/-- R163: folding with a whole table adds entry `i` for each set bit `i`. -/
theorem foldHigh_eq_foldl_finRange {n : Nat} (h : Bits n) (pm : Vector (Bits n) n) (acc : Bits n) :
    foldHigh h 0 pm.toList acc =
      (List.finRange n).foldl (fun acc i => if h.getLsbD i.val then acc ^^^ pm[i] else acc) acc := by
  rw [foldHigh_eq_foldl_zipIdx, zipIdx_toList, List.foldl_map]

/-- Settles O34: both halves of the double-length riffle, bit by bit. -/
theorem sqrFoldsTheHighHalf : Obligations.SqrFoldsTheHighHalf := by
  intro c hc pm v
  have hW : 0 < c.W := by have := Config.eight_le_width hc; omega
  have heven : c.W % 2 = 0 := by rcases Config.wf_width hc with h | h | h | h <;> omega
  have high (i : Fin c.n) : ((dbl c.W c.N v).extractLsb' c.n c.n).getLsbD i.val = true ↔
      (c.n + i.val) % 2 = 0 ∧ v.getLsbD ((c.n + i.val) / 2) = true := by
    rw [BitVec.getLsbD_extractLsb', dbl_getLsbD hW heven]
    simp
  refine ⟨(dbl c.W c.N v).extractLsb' 0 c.n, fun j hj => ?_, ?_⟩
  · rw [BitVec.getLsbD_extractLsb', dbl_getLsbD hW heven, Nat.zero_add]
    simp only [hj, decide_true, Bool.true_and]
    rfl
  · rw [sqr, foldHigh_eq_foldl_finRange]
    simp only [high]

/-! ### Powers of x -/

theorem one_shiftLeft_eq_ofNat {n : Nat} (j : Nat) : (1 : Bits n) <<< j = BitVec.ofNat n (2 ^ j) := by
  apply BitVec.eq_of_toNat_eq
  exact (BitVec.toNat_twoPow n j).trans (BitVec.toNat_ofNat _ _).symm

/-- R168: for `j` below `n`, bit `j` alone is `x^j`, already reduced. -/
theorem toPoly_bit {n j : Nat} (p : Bits n) (hj : j < n) : toPoly ((1 : Bits n) <<< j) = X ^ j %ₘ modulus p := by
  have power : toPoly ((1 : Bits n) <<< j) = X ^ j := by
    ext i
    rw [coeff_toPoly, getLsbD_bit, coeff_X_pow]
    simp [hj, eq_comm]
  rw [← power, toPoly_modByMonic]

/-- R166, R167: the value 2, from which the loops start, is x. -/
theorem toPoly_two {n : Nat} (p : Bits n) (hn : 1 < n) : toPoly (2 : Bits n) = X ^ 1 %ₘ modulus p := by
  rw [← toPoly_bit p hn, one_shiftLeft_eq_ofNat]
  rfl

theorem toPoly_mulx_of_X_pow {n k : Nat} {p v : Bits n} (hv : toPoly v = X ^ k %ₘ modulus p) :
    toPoly (mulx p v) = X ^ (k + 1) %ₘ modulus p := by
  rw [toPoly_mulx, mul_modByMonic, toPoly_modByMonic, hv, ← mul_modByMonic, ← pow_succ']

section
variable {c : Config} (hc : c.wf = true) (p : Bits c.n)
include hc

theorem toPoly_sqr_of_X_pow {k : Nat} {v : Bits c.n} (hv : toPoly v = X ^ k %ₘ modulus p) :
    toPoly (sqr c.W c.N (powmod p) v) = X ^ (2 * k) %ₘ modulus p := by
  rw [sqrIsSquareModC c hc, sq, hv, ← mul_modByMonic, ← pow_add, ← two_mul]

/-- R166: entered with the power of x whose exponent is `j` without its low `m` bits, the loop over those bits ends with `x^j`. -/
theorem toPoly_reduceLoop (j m : Nat) (r : Bits c.n) (hr : toPoly r = X ^ (j / 2 ^ m) %ₘ modulus p) :
    toPoly (reduceLoop (sqr c.W c.N (powmod p)) (mulx p) j m r) = X ^ j %ₘ modulus p := by
  induction m generalizing r with
  | zero => simpa [reduceLoop] using hr
  | succ b ih =>
    have hsqr := toPoly_sqr_of_X_pow hc p hr
    have halves : j / 2 ^ (b + 1) = j / 2 ^ b / 2 := by rw [pow_succ, Nat.div_div_eq_div_mul]
    rw [reduceLoop]
    apply ih
    rw [Nat.testBit_eq_decide_div_mod_eq]
    by_cases hbit : j / 2 ^ b % 2 = 1
    · rw [if_pos (decide_eq_true hbit), toPoly_mulx_of_X_pow hsqr, show 2 * (j / 2 ^ (b + 1)) + 1 = j / 2 ^ b by omega]
    · rw [if_neg (by simpa using hbit), hsqr, show 2 * (j / 2 ^ (b + 1)) = j / 2 ^ b by omega]

/-- R166: started at x below the highest bit of `j`, the loop gives `x^j mod c(x)`. -/
theorem toPoly_reduceLoop_two {j : Nat} (hj : j ≠ 0) :
    toPoly (reduceLoop (sqr c.W c.N (powmod p)) (mulx p) j (Nat.log2 j) 2) = X ^ j %ₘ modulus p := by
  have top : j / 2 ^ Nat.log2 j = 1 :=
    Nat.div_eq_of_lt_le (by simpa using Nat.log2_self_le hj) (by simpa [pow_succ, mul_comm] using Nat.lt_log2_self (n := j))
  apply toPoly_reduceLoop hc
  rw [top]
  exact toPoly_two p (by have := Config.eight_le_bits hc; omega)

/-- R169: with the table of P, the value of REDUCE is `x^j mod c(x)`. -/
theorem toPoly_reduceLit (j : Nat) : toPoly (reduceLit c.W c.N p (powmod p) j) = X ^ j %ₘ modulus p := by
  unfold reduceLit
  split_ifs with hlt heq
  · exact toPoly_bit p hlt
  · rw [heq]
    exact toPoly_eq_X_pow_modByMonic p
  · exact toPoly_reduceLoop_two hc p (by omega)

/-- R169: with the table of P, the value of REDUCE.P2 is `x^(2^j) mod c(x)`. -/
theorem toPoly_reducePow2 (j : Nat) : toPoly (reducePow2 c.W c.N (powmod p) j) = X ^ 2 ^ j %ₘ modulus p := by
  rw [reducePow2]
  induction j with
  | zero => exact toPoly_two p (by have := Config.eight_le_bits hc; omega)
  | succ j ih => rw [Function.iterate_succ_apply', toPoly_sqr_of_X_pow hc p ih, pow_succ' 2 j]

end

/-- Settles O40: both sides are `x^J mod c(x)`. -/
theorem directCasesAgreeWithTheLoop : Obligations.DirectCasesAgreeWithTheLoop := by
  intro c hc p J hpos hle
  apply toPoly_injective
  rw [← reduceLoop_eq_foldl (sqr c.W c.N (powmod p)) (mulx p), toPoly_reduceLoop_two hc p (by omega),
    ← one_shiftLeft_eq_ofNat]
  split_ifs with hlt
  · exact (toPoly_bit p hlt).symm
  · rw [show J = c.n by omega]
    exact (toPoly_eq_X_pow_modByMonic p).symm

/-- Settles O39: what the commands leave in R, with the table built or found true. -/
theorem reduceComputesThePower : Obligations.ReduceComputesThePower := by
  intro s hvalid htable
  obtain ⟨q, hq, hqR⟩ := exec_polyResult hvalid htable (i := .reduce) (by simp)
  obtain ⟨q', hq', hqR'⟩ := exec_polyResult hvalid htable (i := .reduceP2) (by simp)
  refine ⟨⟨q, hq, ?_⟩, ⟨q', hq', ?_⟩⟩
  · rw [hqR]
    exact toPoly_reduceLit s.cfgOk s.regs.P s.regs.J.toNat
  · rw [hqR']
    exact toPoly_reducePow2 s.cfgOk s.regs.P s.regs.J.toNat

end Sys2Proof

namespace Sys2Proof.Machine

/-! ### The commands MULX, SQR, REDUCE and REDUCE.P2 -/

theorem exec_mulx (s : State) :
    exec .mulx s = .next (s.withRegs (s.regs.requireCoef { s.regs with R := mulx s.regs.P s.regs.R })) := rfl

theorem exec_sqr (s : State) :
    exec .sqr s =
      .next (s.withRegs (s.regs.requireCoef { s.regs.ensurePm with R := sqr s.cfg.W s.cfg.N s.regs.ensurePm.PM s.regs.R })) :=
  rfl

theorem exec_reduce (s : State) :
    exec .reduce s =
      .next (s.withRegs (s.regs.requireCoef
        { s.regs.ensurePm with R := reduceLit s.cfg.W s.cfg.N s.regs.P s.regs.ensurePm.PM s.regs.J.toNat })) := rfl

theorem exec_reduceP2 (s : State) :
    exec .reduceP2 s =
      .next (s.withRegs (s.regs.requireCoef
        { s.regs.ensurePm with R := reducePow2 s.cfg.W s.cfg.N s.regs.ensurePm.PM s.regs.J.toNat })) := rfl

section
variable {c : Config} {r : Regs c}

/-- R234: without coefficients a command writes ECODE, ERR and its completion only. -/
theorem Regs.requireCoef_eq_nocoef (hinvalid : r.PVALID = false) (r' : Regs c) :
    r.requireCoef r' = { r with ECODE := 2, ERR := true, PEND := none } :=
  r.requireCoef_of_invalid r' hinvalid

/-- R165: with coefficients, a command that needs the table and computes `v` leaves the table built and `v` in R. -/
theorem Regs.requireCoef_ensurePm_writeR (hvalid : r.PVALID = true) (v : Bits c.n) :
    r.requireCoef { r.ensurePm with R := v } =
      { r with PM := if r.PMVALID then r.PM else powmod r.P, PMVALID := true, R := v, ECODE := 0, PEND := none } := by
  have built : r.ensurePm = { r with PM := if r.PMVALID then r.PM else powmod r.P, PMVALID := true } := by
    unfold Regs.ensurePm
    cases h : r.PMVALID with
    | false => rfl
    | true => exact congrArg (fun b => { r with PMVALID := b }) h
  rw [requireCoef_of_valid _ _ hvalid, built]
  rfl

end

/-- R166: the value of REDUCE with its direct cases and its loop written out. -/
theorem reduceLit_eq_foldl {n : Nat} (W N : Nat) (p : Bits n) (pm : Vector (Bits n) n) (j : Nat) :
    reduceLit W N p pm j =
      if j < n then BitVec.ofNat n (2 ^ j)
      else if j = n then p
      else (List.range (Nat.log2 j)).reverse.foldl
        (fun r b => if j.testBit b then mulx p (sqr W N pm r) else sqr W N pm r) 2 := by
  rw [reduceLit, one_shiftLeft_eq_ofNat, reduceLoop_eq_foldl]

/-- Settles O32: MULX does not look at the table. -/
theorem mulxMultipliesR : Obligations.MulxMultipliesR := by
  intro s
  refine ⟨fun hinvalid => ?_, fun hvalid => ?_⟩
  · rw [exec_mulx, Regs.requireCoef_eq_nocoef hinvalid]
  · rw [exec_mulx, Regs.requireCoef_of_valid _ _ hvalid]
    rfl

/-- Settles O36: the table is built first, and the square of R taken with it. -/
theorem sqrSquaresR : Obligations.SqrSquaresR := by
  intro s
  refine ⟨fun hinvalid => ?_, fun hvalid => ?_⟩
  · rw [exec_sqr, Regs.requireCoef_eq_nocoef hinvalid]
  · rw [exec_sqr, Regs.requireCoef_ensurePm_writeR hvalid, Regs.ensurePm_PM]

/-- Settles O37: the table is built first, and the loop of the model is the one over the bits of J from the top down. -/
theorem reduceRunsSquareAndMultiply : Obligations.ReduceRunsSquareAndMultiply := by
  intro s
  refine ⟨fun hinvalid => ?_, fun hvalid => ?_⟩
  · rw [exec_reduce, Regs.requireCoef_eq_nocoef hinvalid]
  · rw [exec_reduce, Regs.requireCoef_ensurePm_writeR hvalid, Regs.ensurePm_PM, reduceLit_eq_foldl]

/-- Settles O38: the table is built first, and every one of the J squarings is taken with it. -/
theorem reduceP2SquaresJTimes : Obligations.ReduceP2SquaresJTimes := by
  intro s
  refine ⟨fun hinvalid => ?_, fun hvalid => ?_⟩
  · rw [exec_reduceP2, Regs.requireCoef_eq_nocoef hinvalid]
  · rw [exec_reduceP2, Regs.requireCoef_ensurePm_writeR hvalid, Regs.ensurePm_PM, reducePow2]

end Sys2Proof.Machine
end

section
/-! SUPPORT. The step unit word by word, its linearity, and the commands STEP and APPLY with the jump laws (spec/43_advance.md R190 to
R203). -/

namespace Sys2Proof.Machine

/-! ### The words of a step -/

section
variable {m W : Nat} (A B C : Nat)

/-- R191: the four new words, in the order of the assignments. -/
theorem getWord_xoshiro4 (hm : 4 * W ≤ m) (v : Bits m) {k : Nat} (hk : k < 4) :
    let s := getWord W v
    getWord W (xoshiro4 W A B v) k =
      [s 0 ^^^ (s 3 ^^^ s 1), s 1 ^^^ (s 2 ^^^ s 0), s 2 ^^^ s 0 ^^^ s 1 <<< A, rotl (s 3 ^^^ s 1) B].getD k 0 :=
  getWord_packWords m _ 4 k hk hm

/-- R192: the eight new words, in the order of the assignments. -/
theorem getWord_xoshiro8 (hm : 8 * W ≤ m) (v : Bits m) {k : Nat} (hk : k < 8) :
    let s := getWord W v
    getWord W (xoshiro8 W A B v) k =
      [s 0 ^^^ s 6, s 1 ^^^ (s 2 ^^^ s 0), s 2 ^^^ s 0, s 3 ^^^ s 4, s 4 ^^^ (s 5 ^^^ s 1), s 5 ^^^ s 1,
        s 6 ^^^ (s 7 ^^^ s 3) ^^^ s 1 <<< A, rotl (s 7 ^^^ s 3) B].getD k 0 :=
  getWord_packWords m _ 8 k hk hm

/-- R193: the two words that are computed; every other word moves down. -/
theorem getWord_xoroshiro {N : Nat} (hm : N * W ≤ m) (v : Bits m) {k : Nat} (hk : k < N) :
    let s := getWord W v
    let sf := s (N - 1) ^^^ s 0
    getWord W (xoroshiro W N A B C v) k =
      if k = N - 1 then rotl sf C else if k = N - 2 then rotl (s 0) A ^^^ sf ^^^ sf <<< B else s (k + 1) :=
  getWord_packWords m _ N k hk hm

end

section
variable {c : Config} {A B C : Nat}

theorem stepT_xoshiro4 (hT : c.stepFn = .xoshiro A B) (hN : c.N = 4) : stepT c = xoshiro4 c.W A B := by
  funext v
  simp only [stepT, hT, if_pos hN]

theorem stepT_xoshiro8 (hT : c.stepFn = .xoshiro A B) (hN : c.N = 8) : stepT c = xoshiro8 c.W A B := by
  funext v
  simp only [stepT, hT, if_neg (show ¬ c.N = 4 by omega)]

theorem stepT_xoroshiro (hT : c.stepFn = .xoroshiro A B C) : stepT c = xoroshiro c.W c.N A B C := by
  funext v
  simp only [stepT, hT]

theorem stepT_generic {g : GenericMap c.n} (hT : c.stepFn = .generic g) : stepT c = genericStep g := by
  funext v
  simp only [stepT, hT]

/-- R12, R190: XOSHIRO has four or eight words, and a rotation the library's rotation answers. -/
theorem wf_xoshiro (hc : c.wf = true) (hT : c.stepFn = .xoshiro A B) :
    (c.N = 4 ∨ c.N = 8) ∧ 1 ≤ B ∧ B ≤ c.W - 1 := by
  have h := Config.wf_step hc
  simp only [Config.wfStep, hT, Bool.and_eq_true, decide_eq_true_eq, shiftInRange_iff] at h
  obtain ⟨⟨hN, -⟩, hB⟩ := h
  exact ⟨hN, hB⟩

/-- R12, R190: XOROSHIRO has two words or more, and rotations the library's rotation answers. -/
theorem wf_xoroshiro (hc : c.wf = true) (hT : c.stepFn = .xoroshiro A B C) :
    2 ≤ c.N ∧ (1 ≤ A ∧ A ≤ c.W - 1) ∧ 1 ≤ C ∧ C ≤ c.W - 1 := by
  have h := Config.wf_step hc
  simp only [Config.wfStep, hT, Bool.and_eq_true, decide_eq_true_eq, shiftInRange_iff] at h
  obtain ⟨⟨⟨hN, hA⟩, -⟩, hC⟩ := h
  exact ⟨hN, hA, hC⟩

end

/-- Settles O43: the words of the assignments; the order in which a sum was made does not matter. -/
theorem xoshiroFourWordStep : Obligations.XoshiroFourWordStep := by
  intro c A B hc hT hN v s t
  have word {k : Nat} (hk : k < 4) := getWord_xoshiro4 A B (by rw [← hN]) v hk
  obtain ⟨-, hB⟩ := wf_xoshiro hc hT
  simp only [t, stepT_xoshiro4 hT hN, ← rotl_eq_rotateLeft _ hB]
  refine ⟨?_, ?_, word (by decide), word (by decide)⟩
  · exact (word (by decide)).trans (BitVec.xor_assoc ..).symm
  · exact (word (by decide)).trans (BitVec.xor_assoc ..).symm

/-- Settles O44: the words of the assignments; the order in which a sum was made does not matter. -/
theorem xoshiroEightWordStep : Obligations.XoshiroEightWordStep := by
  intro c A B hc hT hN v s t
  have word {k : Nat} (hk : k < 8) := getWord_xoshiro8 A B (by rw [← hN]) v hk
  obtain ⟨-, hB⟩ := wf_xoshiro hc hT
  simp only [t, stepT_xoshiro8 hT hN, ← rotl_eq_rotateLeft _ hB]
  refine ⟨word (by decide), ?_, word (by decide), word (by decide), ?_, word (by decide), ?_, word (by decide)⟩
  · exact (word (by decide)).trans (BitVec.xor_assoc ..).symm
  · exact (word (by decide)).trans (BitVec.xor_assoc ..).symm
  · exact (word (by decide)).trans (congrArg (· ^^^ _) (BitVec.xor_assoc ..).symm)

/-- Settles O45: the indices N − 1 and N − 2 are those of the computed words; for N = 2 there is no other. -/
theorem xoroshiroStep : Obligations.XoroshiroStep := by
  intro c A B C hc hT v s sf t
  have word {k : Nat} (hk : k < c.N) := getWord_xoroshiro A B C le_rfl v hk
  obtain ⟨hN, hA, hC⟩ := wf_xoroshiro hc hT
  simp only [t, stepT_xoroshiro hT, ← rotl_eq_rotateLeft _ hA, ← rotl_eq_rotateLeft _ hC]
  refine ⟨fun i hi => ?_, ?_, ?_⟩
  · rw [word (by omega), if_neg (by omega), if_neg (by omega)]
  · rw [word (by omega), if_neg (by omega), if_pos rfl]
  · rw [word (by omega), if_pos rfl]

/-! ### The map of a GENERIC unit -/

/-- The sum of the columns as a loop over their places, from any start. -/
theorem foldl_columns_eq_xor {n : Nat} (v : Bits n) (cols : List (Bits n)) (i : Nat) (acc : Bits n) :
    (List.range cols.length).foldl (fun acc j => if v.getLsbD (i + j) then acc ^^^ cols.getD j 0 else acc) acc =
      acc ^^^ xorColumns v i cols := by
  induction cols generalizing i acc with
  | nil => exact BitVec.xor_zero.symm
  | cons m ms ih =>
    have first : (if v.getLsbD i then acc ^^^ m else acc) = acc ^^^ if v.getLsbD i then m else 0 := by
      split
      · rfl
      · exact BitVec.xor_zero.symm
    rw [List.length_cons, List.range_succ_eq_map, List.foldl_cons, List.foldl_map, xorColumns, ← BitVec.xor_assoc, ← ih]
    simp only [Nat.add_zero, List.getD_cons_zero, List.getD_cons_succ, Nat.succ_eq_add_one, Nat.add_right_comm i,
      ← Nat.add_assoc, first]

/-- Settles O46: an exception answers first, and otherwise the columns are summed. -/
theorem genericStepFollowsItsData : Obligations.GenericStepFollowsItsData := by
  intro c g hT v
  rw [stepT_generic hT]
  refine ⟨fun w hw => ?_, fun hnone => ?_⟩
  · simp only [genericStep, hw]
  · have columns := foldl_columns_eq_xor v g.columns 0 0
    simp only [Nat.zero_add] at columns
    simp only [genericStep, hnone]
    exact BitVec.zero_xor.symm.trans columns.symm

/-! ### Linearity of the fixed step functions -/

/-- A map is linear if every word of it is. -/
theorem isLinear_of_words {N W : Nat} {T : Bits (N * W) → Bits (N * W)}
    (h : ∀ a b, ∀ k < N, getWord W (T (a ^^^ b)) k = getWord W (T a) k ^^^ getWord W (T b) k) : IsLinear T := by
  intro a b
  refine eq_of_words _ _ fun k hk => ?_
  rw [h a b k hk, getWord_xor]

theorem isLinear_xoshiro4 (W A B : Nat) : IsLinear (xoshiro4 (m := 4 * W) W A B) := by
  refine isLinear_of_words fun a b k hk => ?_
  simp only [getWord_xoshiro4 A B le_rfl _ hk, getWord_xor, BitVec.shiftLeft_xor_distrib, rotl_xor]
  interval_cases k <;> simp only [List.getD_cons_zero, List.getD_cons_succ] <;> ac_rfl

theorem isLinear_xoshiro8 (W A B : Nat) : IsLinear (xoshiro8 (m := 8 * W) W A B) := by
  refine isLinear_of_words fun a b k hk => ?_
  simp only [getWord_xoshiro8 A B le_rfl _ hk, getWord_xor, BitVec.shiftLeft_xor_distrib, rotl_xor]
  interval_cases k <;> simp only [List.getD_cons_zero, List.getD_cons_succ] <;> ac_rfl

theorem isLinear_xoroshiro (N W A B C : Nat) : IsLinear (xoroshiro (m := N * W) W N A B C) := by
  refine isLinear_of_words fun a b k hk => ?_
  simp only [getWord_xoroshiro A B C le_rfl _ hk, getWord_xor, BitVec.shiftLeft_xor_distrib, rotl_xor]
  split_ifs
  · ac_rfl
  · ac_rfl
  · rfl

/-- Settles O47: one lemma for each fixed wiring. -/
theorem fixedStepFunctionsAreLinear : Obligations.FixedStepFunctionsAreLinear := by
  intro c hc hfixed
  cases hT : c.stepFn with
  | xoshiro A B =>
    obtain ⟨hN | hN, -⟩ := wf_xoshiro hc hT
    · rw [stepT_xoshiro4 hT hN, Config.n, hN]
      exact isLinear_xoshiro4 c.W A B
    · rw [stepT_xoshiro8 hT hN, Config.n, hN]
      exact isLinear_xoshiro8 c.W A B
  | xoroshiro A B C =>
    rw [stepT_xoroshiro hT]
    exact isLinear_xoroshiro c.N c.W A B C
  | generic g => exact absurd hT (hfixed g)

/-! ### The commands STEP and APPLY -/

theorem exec_apply (s : State) :
    exec .apply s = .next (s.withRegs { s.regs with
      ACC := applyPoly (stepT s.cfg) s.regs.R s.regs.S, S := applyPoly (stepT s.cfg) s.regs.R s.regs.S
      ECODE := 0, PEND := none }) := rfl

/-- Settles O42: STEP is that one update and the completion, by definition. -/
theorem stepAppliesT : Obligations.StepAppliesT := fun _ => rfl

/-- Settles O49: the loop of R198 is the sum over the set bits of R. -/
theorem applySumsSteppedStates : Obligations.ApplySumsSteppedStates := by
  intro s sum
  rw [exec_apply, applyPoly_eq_foldl]

theorem State.withRegs_injective (s : State) : Function.Injective s.withRegs := by
  intro r r' h
  cases h
  rfl

/-- One outcome is a next state of `s` with one set of registers. -/
theorem State.regs_eq_of_next {s : State} {o : Host.Outcome State Fault Refusal} {r r' : Regs s.cfg}
    (h : o = .next (s.withRegs r)) (h' : o = .next (s.withRegs r')) : r = r' :=
  s.withRegs_injective (Host.Outcome.next.inj (h.symm.trans h'))

/-- R201: what APPLY makes of `v` is `apply(r, v)`. -/
theorem State.appliesTo_iff {s : State} {r v w : Bits s.cfg.n} :
    s.AppliesTo r v w ↔ applyPoly (stepT s.cfg) r v = w := by
  constructor
  · rintro ⟨q, hq, rfl⟩
    exact congrArg Regs.S (State.regs_eq_of_next (exec_apply _) hq)
  · rintro rfl
    exact ⟨_, exec_apply _, rfl⟩

end Sys2Proof.Machine

namespace Sys2Proof
open Machine Polynomial

/-! ### Linear transitions: the zero state and the jump laws -/

/-- R196: a linear `T` jumps from 0 to 0. -/
theorem IsLinear.applyPoly_zero {n : Nat} {T : Bits n → Bits n} (h : IsLinear T) (r : Bits n) : applyPoly T r 0 = 0 := by
  apply stateVec_injective
  rw [h.stateVec_applyPoly, stateVec_zero, Matrix.mulVec_zero]

/-- Settles O48: a linear `T` keeps 0, by a step and by a jump. -/
theorem zeroStateIsAbsorbing : Obligations.ZeroStateIsAbsorbing := by
  intro s hlin
  refine ⟨hlin.map_zero, fun hS => ⟨?_, ?_⟩⟩
  · rw [stepAppliesT s, hS, hlin.map_zero]
  · rw [exec_apply, hS, hlin.applyPoly_zero]

/-- R203: modulo the characteristic polynomial, applying `x^J` is J steps. -/
theorem IsCharPoly.applyPoly_eq_iterate {n : Nat} {T : Bits n → Bits n} {p r : Bits n} (h : IsCharPoly T p) {J : Nat}
    (hr : toPoly r = X ^ J %ₘ modulus p) (v : Bits n) : applyPoly T r v = T^[J] v :=
  jumpEqualsSteps n T p r v J h.1 (characteristicPolynomialAnnihilates n T p h) hr

/-- R203 (a): a command that leaves `x^J mod c(x)` in R, and S as it was, followed by APPLY, is J steps. -/
theorem apply_after_power {s : State} {i : Instr} {p : Bits s.cfg.n} {J : Nat} (hchar : IsCharPoly (stepT s.cfg) p)
    (hi : i ∉ [Instr.step, .apply])
    (hpower : ∃ q : Regs s.cfg, exec i s = .next (s.withRegs q) ∧ toPoly q.R = X ^ J %ₘ modulus p) :
    ∃ q r : Regs s.cfg, exec i s = .next (s.withRegs q) ∧ exec .apply (s.withRegs q) = .next (s.withRegs r) ∧
      r.S = (stepT s.cfg)^[J] s.regs.S := by
  obtain ⟨q, hq, hR⟩ := hpower
  have hS : q.S = s.regs.S := by
    obtain ⟨q', hq', -, -, -, -, -, -, hkeep, -⟩ := commandsWriteOnlyTheirTargets i s
    rw [State.regs_eq_of_next hq hq', hkeep hi]
  refine ⟨q, _, hq, exec_apply _, ?_⟩
  rw [← hS]
  exact hchar.applyPoly_eq_iterate hR q.S

/-- Settles O52: APPLY with a power of x modulo `c(x)` is steps, whether REDUCE left it in R, or the Host did, or it is P. -/
theorem jumpLaws : Obligations.JumpLaws := by
  intro s hvalid htable hchar
  obtain ⟨hreduce, hreduceP2⟩ := reduceComputesThePower s hvalid htable
  refine ⟨apply_after_power hchar (by decide) hreduce, apply_after_power hchar (by decide) hreduceP2, ?_, fun v => ?_⟩
  · intro J₁ J₂ r₁ r₂ r₁₂ v w₁ w₂ hr₁ hr₂ hr₁₂ happly₁ happly₂
    rw [State.appliesTo_iff] at happly₁ happly₂ ⊢
    rw [hchar.applyPoly_eq_iterate hr₁] at happly₁
    rw [hchar.applyPoly_eq_iterate hr₂] at happly₂
    rw [hchar.applyPoly_eq_iterate hr₁₂, Nat.add_comm, Function.iterate_add_apply, happly₁, happly₂]
  · rw [State.appliesTo_iff]
    exact hchar.applyPoly_eq_iterate (toPoly_eq_X_pow_modByMonic s.regs.P) v

end Sys2Proof
end

section
/-! SUPPORT. The commands that compute nothing (spec/44_control.md R220, R221). -/

namespace Sys2Proof.Machine

/-- Settles O22: NOP is the completion alone (`Regs.complete`), by definition. -/
theorem nopClearsEcodeOnly : Obligations.NopClearsEcodeOnly := fun _ => rfl

/-- Settles O23: CLRERR is the two sticky flags and the completion, which clears ECODE, by definition. -/
theorem clrerrClearsErrOvrEcode : Obligations.ClrerrClearsErrOvrEcode := fun _ => rfl

end Sys2Proof.Machine
end

section
/-! SUPPORT. Failures (spec/60_exceptions.md R230 to R239): the Core's turn with an illegal word, the step for each kind of turn, and
which commands raise NOCOEF. -/

namespace Sys2Proof.Machine

/-! ### Illegal words -/

/-- R105: an illegal word does not decode. -/
theorem exists_decode_eq_error_of_illegal {W : Nat} {d : Word W} (hillegal : legal d = false) : ∃ e, decode d = .error e := by
  cases hdec : decode d with
  | error e => exact ⟨e, rfl⟩
  | ok i =>
    have hlegal : legal d = true := (legal_iff_exists_decode d).2 ⟨i, hdec⟩
    exact absurd (hillegal.symm.trans hlegal) Bool.false_ne_true

/-- R233: the Core's turn with a word that does not decode fails with ILLEGAL. -/
theorem coreTurn_of_decode_error {s : State} {d : Word s.cfg.W} {e : DecodeError} (hpend : s.regs.PEND = some d)
    (hdec : decode d = .error e) : coreTurn s = .next (s.withRegs (s.regs.fail .illegal)) := by
  simp only [coreTurn, hpend, performWord, hdec]

/-- Settles O5: the step is the Core's turn, and `Regs.fail` writes nothing else. -/
theorem illegalWordFails : Obligations.IllegalWordFails := by
  intro s d ts hpend hillegal hturns
  obtain ⟨e, hdec⟩ := exists_decode_eq_error_of_illegal hillegal
  exact (step_of_coreTurn hturns).trans (coreTurn_of_decode_error hpend hdec)

/-! ### Every step goes on -/

/-- R230: the Core's turn goes on, with nothing pending, with a command, and with an illegal word. -/
theorem coreTurn_goesOn (s : State) : GoesOn (coreTurn s) := by
  cases hpend : s.regs.PEND with
  | none => exact ⟨s, coreTurn_of_idle hpend⟩
  | some d =>
    cases hdec : decode d with
    | error e => exact ⟨_, coreTurn_of_decode_error hpend hdec⟩
    | ok i =>
      obtain ⟨r, hexec⟩ := exec_next i s
      exact ⟨_, (coreTurn_of_decode hpend hdec).trans hexec⟩

section turns
variable {s : State} {ts : List Turn}

/-- Where `turns` names the Host, the step is the Host's. -/
theorem step_of_hostTurn (hturns : s.turns = .host :: ts) : step s = .next (hostTurn { s with turns := ts }) := by
  simp only [step, move, hturns]

/-- R260: where `turns` names the reset input, the step is the reset. -/
theorem step_of_resetTurn (hturns : s.turns = .reset :: ts) : step s = .next (resetTurn { s with turns := ts }) := by
  simp only [step, move, hturns]

/-- Where `turns` says nothing more and no command is pending, the step is the Host's (log 8). -/
theorem step_of_no_turn_idle (hturns : s.turns = []) (hidle : s.regs.PEND = none) : step s = .next (hostTurn s) := by
  simp only [step, move, hturns, s.regs.busy_eq_false.2 hidle, Bool.false_eq_true, if_false]

end turns

/-- Settles O7: the Host's turn and the reset input answer a next state outright, and the Core's turn does whatever is pending. -/
theorem everyStepGoesOn : Obligations.EveryStepGoesOn := by
  intro s
  cases hturns : s.turns with
  | nil =>
    by_cases hidle : s.regs.PEND = none
    · exact ⟨_, step_of_no_turn_idle hturns hidle⟩
    · exact step_of_no_turn hturns hidle ▸ coreTurn_goesOn s
  | cons turn ts =>
    cases turn with
    | host => exact ⟨_, step_of_hostTurn hturns⟩
    | core => exact step_of_coreTurn hturns ▸ coreTurn_goesOn { s with turns := ts }
    | reset => exact ⟨_, step_of_resetTurn hturns⟩

/-! ### NOCOEF -/

/-- R234: five commands are guarded by PVALID, and what they compute leaves ERR alone. -/
theorem exec_of_needs_coefficients {i : Instr} (hi : i ∈ [Instr.precomp, .mulx, .sqr, .reduce, .reduceP2]) (s : State) :
    ∃ r, exec i s = .next (s.withRegs (s.regs.requireCoef r)) ∧ r.ERR = s.regs.ERR := by
  simp only [List.mem_cons, List.not_mem_nil, or_false] at hi
  obtain rfl | rfl | rfl | rfl | rfl := hi
  · exact ⟨_, exec_precomp s, rfl⟩
  · exact ⟨_, exec_mulx s, rfl⟩
  · exact ⟨_, exec_sqr s, s.regs.ensurePm_ERR⟩
  · exact ⟨_, exec_reduce s, s.regs.ensurePm_ERR⟩
  · exact ⟨_, exec_reduceP2 s, s.regs.ensurePm_ERR⟩

/-- R234: six commands complete whatever the registers hold. -/
theorem exec_of_never_fails {i : Instr} (hi : i ∈ [Instr.riffle, .step, .apply, .ldp, .nop, .clrerr]) (s : State) :
    ∃ r : Regs s.cfg, exec i s = .next (s.withRegs r.complete) := by
  simp only [List.mem_cons, List.not_mem_nil, or_false] at hi
  obtain rfl | rfl | rfl | rfl | rfl | rfl := hi <;> exact ⟨_, rfl⟩

/-- R142, R143: SELP fails with NOCOEF on a miss, and on a hit completes with ERR as it was. -/
theorem Regs.selp_result {c : Config} (r : Regs c) (entry : Option (Bits c.n)) :
    (entry = none → (r.selp entry).ECODE = 2 ∧ (r.selp entry).ERR = true) ∧
    (entry ≠ none → (r.selp entry).ECODE = 0 ∧ (r.selp entry).ERR = r.ERR) := by
  cases entry with
  | none => exact ⟨fun _ => ⟨rfl, rfl⟩, fun hhit => absurd rfl hhit⟩
  | some v => exact ⟨fun hmiss => (nomatch hmiss), fun _ => ⟨rfl, rfl⟩⟩

/-- Settles O27: SELP's result turns on the ROM's answer, that of the guarded commands on PVALID, and the others only complete. -/
theorem nocoefExactlyWhenCoefficientsAreMissing : Obligations.NocoefExactlyWhenCoefficientsAreMissing := by
  intro s
  refine ⟨⟨_, exec_selp s, s.regs.selp_result _⟩, fun hinvalid i hi => ?_, fun hvalid i hi => ?_, fun i hi => ?_⟩
  · obtain ⟨r, hexec, -⟩ := exec_of_needs_coefficients hi s
    rw [hexec, Regs.requireCoef_eq_nocoef hinvalid]
  · obtain ⟨r, hexec, hERR⟩ := exec_of_needs_coefficients hi s
    rw [Regs.requireCoef_of_valid _ _ hvalid] at hexec
    exact ⟨_, hexec, rfl, hERR⟩
  · obtain ⟨r, hexec⟩ := exec_of_never_fails hi s
    exact ⟨_, hexec, rfl⟩

end Sys2Proof.Machine
end

section
/-! SUPPORT. Reset and hazards (spec/70_reset_and_hazards.md R260 to R265): the reset values word by word, the commands right after
reset, and the operands of a command that stays pending while the Host writes. -/

namespace Sys2Proof.Machine

/-! ### A command pending while the Host writes -/

/-- R78: however many bus writes arrive while a command is pending, all they do is set OVR. -/
theorem foldl_busWrite_of_busy {c : Config} (ws : List (Addr × Word c.W)) (r : Regs c) (hbusy : r.PEND ≠ none) :
    ws.foldl (fun r w => r.busWrite w.1 w.2) r = { r with OVR := r.OVR || !ws.isEmpty } := by
  induction ws generalizing r with
  | nil => simp
  | cons w ws ih =>
    rw [List.foldl_cons, Regs.busWrite_of_busy _ _ _ hbusy, ih { r with OVR := true } hbusy]
    simp

/-- R230: no step stops the machine, so a run of one step is that step. -/
theorem run_one (s : State) : core.run 1 s = step s := by
  obtain ⟨t, ht⟩ := everyStepGoesOn s
  rw [ht]
  exact run_next ht

/-- Settles O16: the writes are dropped one by one, and the Core's turn then finds the registers of the issue. -/
theorem pendingCommandCapturesItsOperands : Obligations.PendingCommandCapturesItsOperands := by
  intro s d i ws rest ts hpend hdec hhost hturns
  have hwrites := run_hostWrites s ws rest (.core :: ts) 1 s.regs
  rw [← hhost, ← hturns, foldl_busWrite_of_busy ws s.regs (by simp [hpend]), run_one] at hwrites
  exact hwrites.trans ((step_of_coreTurn rfl).trans (coreTurn_of_decode hpend hdec))

/-! ### The reset values -/

/-- Settles O19: the reset input's turn puts the reset registers in the place of whatever the registers were. -/
theorem resetSetsEveryRegister : Obligations.ResetSetsEveryRegister := by
  intro s ts hturns
  exact ⟨_, _, _, _, step_of_resetTurn hturns⟩

/-- R260: the value 1 is the words 1, 0, …, 0. -/
theorem getWord_one {m W : Nat} (hW : 0 < W) (hm : 0 < m) (k : Nat) : getWord W (1 : Bits m) k = if k = 0 then 1 else 0 := by
  apply BitVec.eq_of_getLsbD_eq
  intro i hi
  rw [getWord_getLsbD, BitVec.ofNat_eq_ofNat, BitVec.getLsbD_one]
  split
  · subst k
    simp [hi, hm]
  · have hpos : 0 < k * W := Nat.mul_pos (by omega) hW
    simp
    omega

/-- R261: every field of STATUS is zero after reset. -/
theorem Regs.status_reset {c : Config} (hc : c.wf = true) : (Regs.reset c).status = 0 := by
  apply BitVec.eq_of_getLsbD_eq
  intro i _
  rw [Regs.status_getLsbD hc]
  split <;> simp [Regs.busy]

/-- Settles O20: the registers by definition, STATUS and the words of R and S by the lemmas above. -/
theorem resetStateHasTheSpecValues : Obligations.ResetStateHasTheSpecValues := by
  intro c ok r
  have hW := Config.eight_le_width ok
  have hn := Config.eight_le_bits ok
  have word (k : Nat) : getWord c.W (1 : Bits c.n) k = if k = 0 then 1 else 0 := getWord_one (by omega) (by omega) k
  have high {k : Nat} (hk : 1 ≤ k) : getWord c.W (1 : Bits c.n) k = 0 := (word k).trans (if_neg (by omega))
  exact ⟨rfl, rfl, rfl, rfl, rfl, rfl, rfl, rfl, rfl, rfl, rfl, Regs.status_reset ok, rfl, word 0, word 0,
    fun k hk => ⟨high hk, high hk⟩⟩

/-! ### The commands right after reset -/

/-- R262: the coefficients 1 select the state itself and no later one, whatever the step unit. -/
theorem applyPoly_one_left {n : Nat} (T : Bits n → Bits n) (s : Bits n) : applyPoly T 1 s = s := by
  rw [applyPoly_eq_foldl]
  cases n with
  | zero => exact Subsingleton.elim _ _
  | succ n =>
    have first : (1 : Bits (n + 1)).getLsbD 0 = true := by simp
    have later (i : Nat) : ¬ (1 : Bits (n + 1)).getLsbD (i + 1) = true := by simp
    rw [List.range_succ_eq_map, List.foldl_cons, List.foldl_map, if_pos first, List.foldl_fixed' fun i => if_neg (later i)]
    exact BitVec.zero_xor

/-- Settles O21: APPLY with R = 1 leaves S as it is; PVALID = 0 decides the commands that need coefficients; the other four complete,
and none of them sets ERR. -/
theorem commandsRightAfterReset : Obligations.CommandsRightAfterReset := by
  intro c ok s
  refine ⟨?_, fun i hi => ?_, fun i hi => ?_⟩
  · have identity : applyPoly (stepT s.cfg) s.regs.R s.regs.S = 1 := applyPoly_one_left (stepT c) 1
    rw [exec_apply, identity]
    rfl
  · obtain ⟨-, hnocoef, -, -⟩ := nocoefExactlyWhenCoefficientsAreMissing s
    refine hnocoef rfl i ?_
    simp only [List.mem_cons, List.not_mem_nil, or_false] at hi ⊢
    tauto
  · simp only [List.mem_cons, List.not_mem_nil, or_false] at hi
    obtain rfl | rfl | rfl | rfl := hi
    · exact ⟨_, rfl, rfl, rfl⟩ -- RIFFLE
    · exact ⟨_, rfl, rfl, rfl⟩ -- STEP
    · exact ⟨_, rfl, rfl, rfl⟩ -- NOP
    · exact ⟨_, rfl, rfl, rfl⟩ -- CLRERR

end Sys2Proof.Machine
end
